-- ==== Sys2Proof/Word.lean ====
section
/-!
DEFINITION. The widths of the machine's bit patterns (spec 00_scope.md R6, R7).
-/

namespace Sys2Proof

/-- One byte of the program space (R51). -/
abbrev Byte := BitVec 8

/-- The 3-bit opcode field (R6 `OPCODE_BITS`, R82). -/
abbrev Opcode := BitVec 3

/-- A 12-bit pattern: a memory cell, an operand field, the flip-flops of the accumulator
(R6 `OPERAND_BITS`, `CELL_BITS`, `ACC_BITS`). -/
abbrev Pattern := BitVec 12

end Sys2Proof
end

