-- ==== Sys2Proof/Machine/Operands.lean ====
section
/-!
DEFINITION. The converter unit `SXT` and the sign function (spec 40_sign_conversion.md R110 to
R116; 10_state.md R31): the only computations of this machine (R117). They are pure and touch no
state, so this file does not import the state.
-/

namespace Sys2Proof.Machine

/-- `sign_extend(u, bits)`, the source's formula (R110). -/
def signExtend (u bits : Nat) : Int :=
  if u > 2 ^ (bits - 1) - 1 then (u : Int) - 2 ^ bits else u

/-- `to_unsigned(s, bits)`, the source's formula, meant for `s` in the signed range (R111). -/
def toUnsigned (s : Int) (bits : Nat) : Int :=
  if s < 0 then s + 2 ^ bits else s

/-- `sext_12` (R9, R110). -/
def sext12 (u : Pattern) : Int := signExtend u.toNat 12

/-- `tou_12` in the total form `s mod 4096` (R116, decision D15), which is R111 on its domain. -/
def tou12 (s : Int) : Pattern := BitVec.ofNat 12 (s % 4096).toNat

/-- The sign function of R113. -/
def sgn (s : Int) : Int := if s < 0 then -1 else if s = 0 then 0 else 1

end Sys2Proof.Machine
end

