-- ==== Sys2Proof/Config.lean ====
section
/-!
DEFINITION. What is fixed for one machine: the parameter the spec leaves open
(spec 00_scope.md R6, decision D10).
-/

namespace Sys2Proof

/-- The implementation parameters of R6 that are not fixed numbers: `MEM_SIZE` alone, any natural. -/
structure Config where
  /-- `MEM_SIZE`, the number of data cells (R6, R23; decision D10: any natural). -/
  memSize : Nat
deriving DecidableEq, Repr

/-- The default of R6, `MEM_SIZE = 256` (DESIGN CHOICE for `State.reset` only, log entry 1). -/
def Config.standard : Config := { memSize := 256 }

end Sys2Proof
end

