-- ==== Sys2Proof/Syntax.lean ====
section
/-!
DEFINITION. The instructions: one constructor for each row of spec/opcode_table.json, in the
table's order (spec 30_encoding.md R88). An instruction is a pair of an opcode and a signed operand
(00_scope.md R16), and the decoder outputs the operand for every opcode (R85, R86, conflict C8), so
every constructor carries it; `SGN` and the illegal opcodes do not read it.
-/

namespace Sys2Proof

inductive Instr where
  /-- Opcode 1, `LOAD_MEM addr` (R135). -/
  | loadMem (addr : Int)
  /-- Opcode 2, `LOAD_CONST c` (R130). -/
  | loadConst (c : Int)
  /-- Opcode 3, `STORE_MEM addr` (R136). -/
  | storeMem (addr : Int)
  /-- Opcode 4, `SGN` (R145); the operand field is ignored (R90). -/
  | sgn (ignored : Int)
  /-- Opcode 0, illegal (R89); DESIGN CHOICE: the operand field is kept, log entry 6. -/
  | illegal0 (ignored : Int)
  /-- Opcode 5, illegal (R89). -/
  | illegal5 (ignored : Int)
  /-- Opcode 6, illegal (R89). -/
  | illegal6 (ignored : Int)
  /-- Opcode 7, illegal (R89). -/
  | illegal7 (ignored : Int)
deriving DecidableEq, Repr

/-- The operand of the pair of R16. -/
def Instr.operand : Instr → Int
  | .loadMem z => z
  | .loadConst z => z
  | .storeMem z => z
  | .sgn z => z
  | .illegal0 z => z
  | .illegal5 z => z
  | .illegal6 z => z
  | .illegal7 z => z

end Sys2Proof
end

