-- ==== Sys2Proof/WellFormed.lean ====
section
/-!
DEFINITION. Which instructions the format can carry: the operand is a 12-bit two's-complement
integer (spec 00_scope.md R16, 30_encoding.md R85, R100).
-/

namespace Sys2Proof

/-- `-2048 ≤ z ≤ 2047`, the range of R16 and R85. -/
abbrev InOperandRange (z : Int) : Prop := -2048 ≤ z ∧ z ≤ 2047

/-- An instruction some word stands for: its operand is in range. -/
abbrev Instr.wf (i : Instr) : Prop := InOperandRange i.operand

end Sys2Proof
end

