-- ==== Sys2Proof/Decode.lean ====
section
/-!
DEFINITION. The decoder `DEC` (spec 30_encoding.md R82 to R89; 10_state.md R30), total on every
byte pair, and after it the reference packing function it is held to (R93).
-/

namespace Sys2Proof
open Sys2Proof.Machine

/-- Opcode extract: `byte1[2:0]` (R82). -/
def opcodeOf (byte1 : Byte) : Opcode := byte1.extractLsb' 0 3

/-- Operand reassembly: `byte2[6:0] ++ byte1[7:3]` (R83); `byte2[7]` reaches no output (R84). -/
def rawOperandOf (byte1 byte2 : Byte) : Pattern := byte2.extractLsb' 0 7 ++ byte1.extractLsb' 3 5

/-- The opcodes of the four instructions (R86, R88). -/
def legalOpcode (op : Opcode) : Bool := op = 1 || op = 2 || op = 3 || op = 4

/-- The outputs of `DEC` (R30, R86). -/
structure Decoded where
  opcode : Opcode
  rawOperand : Pattern
  operand : Int
  legal : Bool
deriving DecidableEq, Repr

/-- `Decode(byte1, byte2)` of R86. -/
def decodeFields (byte1 byte2 : Byte) : Decoded :=
  { opcode := opcodeOf byte1
    rawOperand := rawOperandOf byte1 byte2
    operand := sext12 (rawOperandOf byte1 byte2)
    legal := legalOpcode (opcodeOf byte1) }

/-- The opcode map, a closed case analysis over the eight values (R27, R88, R89). -/
def instrOf (op : Opcode) (operand : Int) : Instr :=
  match op.toFin with
  | 0 => .illegal0 operand
  | 1 => .loadMem operand
  | 2 => .loadConst operand
  | 3 => .storeMem operand
  | 4 => .sgn operand
  | 5 => .illegal5 operand
  | 6 => .illegal6 operand
  | 7 => .illegal7 operand

/-- The instruction a word stands for: the opcode map applied to what `DEC` outputs. -/
def decodeWord (byte1 byte2 : Byte) : Instr :=
  instrOf (decodeFields byte1 byte2).opcode (decodeFields byte1 byte2).operand

/-- Why a byte list holds no whole word at its front. No pair of bytes is rejected (R86). -/
inductive DecodeError where
  /-- No byte is left: the word stream is exhausted (R27, R185). -/
  | exhausted
  /-- One byte is left, half a word (R54). -/
  | halfWord
deriving DecidableEq, Repr

/-- Decode the word at the front of a byte list and give the rest (R51, R80). -/
def decode : List Byte → Except DecodeError (Instr × List Byte)
  | [] => .error .exhausted
  | [_] => .error .halfWord
  | byte1 :: byte2 :: rest => .ok (decodeWord byte1 byte2, rest)

/-- The opcode number of each constructor (R88, R89). -/
def opcodeNumber : Instr → Opcode
  | .loadMem _ => 1
  | .loadConst _ => 2
  | .storeMem _ => 3
  | .sgn _ => 4
  | .illegal0 _ => 0
  | .illegal5 _ => 5
  | .illegal6 _ => 6
  | .illegal7 _ => 7

/-- `byte1` of `Encode`: `u[4:0] ++ opcode` (R93). -/
def packByte1 (op : Opcode) (u : Pattern) : Byte := u.extractLsb' 0 5 ++ op

/-- `byte2` of `Encode`: `0 ++ u[11:5]` (R93). -/
def packByte2 (u : Pattern) : Byte := 0#1 ++ u.extractLsb' 5 7

/-- `Encode(opcode, operand)` of R93 as bytes in stream order. R93 covers opcodes 1 to 4; the
illegal opcodes are packed by the same formula (DESIGN CHOICE, log entry 6). -/
def encode (i : Instr) : List Byte :=
  [packByte1 (opcodeNumber i) (tou12 i.operand), packByte2 (tou12 i.operand)]

/-- The two bytes, in stream order, of an instruction whose low `nbits` bits are those of `w` and
whose other bits are 0; the table's bit 0 is bit 0 of `byte1` (R14, R53). -/
def tableWordBytes (nbits w : Nat) : List Byte :=
  [BitVec.ofNat 8 (w % 2 ^ nbits), BitVec.ofNat 8 (w % 2 ^ nbits / 256)]

/-- The instruction the decoder reads from a word numbered as spec/opcode_table.json numbers it. -/
def decodeTableWord (nbits w : Nat) : Option Instr :=
  match decode (tableWordBytes nbits w) with
  | .ok (i, _) => some i
  | .error _ => none

end Sys2Proof
end

