-- ==== Sys2Proof/Machine/State.lean ====
section
/-!
DEFINITION. The whole state of the machine (spec 10_state.md section 1, R20 to R26), the reasons a
step or a host request can stop, and the state after reset (R35, R180).
-/

namespace Sys2Proof.Machine

/-- The value of the fault latch `FAULT` (R25). -/
inductive FaultLatch where
  /-- No fault. -/
  | none
  /-- Word `idx` has the illegal opcode `opc` (R151). -/
  | unknownOpcode (idx : Nat) (opc : Opcode)
  /-- Word `idx` names the signed address `addr`, which no cell has (R152, R58). -/
  | outOfBounds (idx : Nat) (addr : Int)
  /-- `Start` was given an odd number `len` of bytes (R153). -/
  | malformedProgram (len : Nat)
deriving DecidableEq, Repr

/-- The data memory: pairs of a cell's address and its 12-bit pattern (R23, R52), addresses strictly
rising, no pair equal to what an unlisted address reads as. The manual's unit is the 12-bit cell,
never the byte (R53; DESIGN CHOICE, log entry 3). -/
abbrev Memory := List (Nat × Pattern)

/-- What a cell that nothing has written holds: 0 (R23, R35). -/
def Memory.unlisted : Pattern := 0

/-- The canonical form of a memory. -/
abbrev Memory.wf (m : Memory) : Prop :=
  m.Pairwise (fun x y => x.1 < y.1) ∧ ∀ e ∈ m, e.2 ≠ Memory.unlisted

/-- Everything the spec gives the machine (10_state.md section 1; R36: there is no other state). -/
structure State where
  /-- `MEM_SIZE` (R6), fixed for the machine: no step and no host request changes it
  (DESIGN CHOICE, log entry 1). -/
  config : Config
  /-- The 12 flip-flops of `ACC` (R20, R22). -/
  acc : Pattern
  /-- `MEM` (R23). -/
  mem : Memory
  /-- `pc`, the index of the next word (R24). -/
  pc : Nat
  /-- `FAULT` (R25). -/
  fault : FaultLatch
  /-- `PROG`, the bound program (R26). -/
  prog : List Byte
deriving DecidableEq, Repr

/-- Why `step` gives no next state. The three faults of the spec are not here: they are latched in
`State.fault` by a step that does give a next state (R12). -/
inductive Fault where
  /-- Raised by `step` alone, when `FAULT = none` and no whole word is left (`pc = L`): the run has
  ended normally and no step is enabled (R28, R185). SAFE: the machine stops where the hardware
  idles with no change of state (log entry 4). -/
  | done
  /-- Raised by `step` alone, when `FAULT` holds `latched`, not none: the machine is halted and no
  step is enabled (R28, R160). SAFE: the machine stops where the hardware stays as it is (log entry
  4). -/
  | halted (latched : FaultLatch)
deriving DecidableEq, Repr

/-- Requests to which the spec gives no meaning (R187). -/
inductive Refusal where
  /-- An instruction without a meaning: raised by no one, since every row of the opcode table has
  its meaning. SAFE. -/
  | notModelled (mnemonic : String)
  /-- Raised by `hostStart`: `Start` while `FAULT` is not none (R183, R160). SAFE. -/
  | startWhileHalted
  /-- Raised by `hostStart`: `Start` while a run is in progress (R183). SAFE. -/
  | startWhileRunning
  /-- Raised by `hostSnapshot`: `Snapshot` while `FAULT` is not none (R59, R161). SAFE. -/
  | snapshotWhileHalted
  /-- Raised by `hostSnapshot`: `Snapshot` of a range with `start > end` (R59, decision D11). SAFE. -/
  | snapshotReversed
deriving DecidableEq, Repr

/-- The state after `Reset` of a machine with the parameters `c` (R35, R180). -/
def State.resetWith (c : Config) : State :=
  { config := c, acc := 0, mem := [], pc := 0, fault := .none, prog := [] }

/-- The machine right after reset, with the default `MEM_SIZE = 256` of R6 (log entry 1). -/
def State.reset : State := State.resetWith Config.standard

end Sys2Proof.Machine
end

