-- ==== Sys2Proof/Machine/Ops.lean ====
section
/-!
DEFINITION. The named operations over the state: the cells of the data memory, the memory
controller `MEMC`, the accumulator's ports, fetch, completing an instruction and raising a fault
(spec 00_scope.md R10 to R13; 10_state.md R24 to R33; 20_memory.md R55 to R58; 60_exceptions.md
R158 to R160).
-/

namespace Sys2Proof.Machine

/-- How a step or an instruction of this machine ends. -/
abbrev Result := Host.Outcome State Fault Refusal

/-! ### The cells -/

/-- The pattern cell `a` holds (R23). -/
def Memory.read : Memory → Nat → Pattern
  | [], _ => Memory.unlisted
  | (k, v) :: rest, a => if k = a then v else Memory.read rest a

/-- Cell `a` with the pattern `v` in front of the cells `rest`, in canonical form. -/
def Memory.cons (a : Nat) (v : Pattern) (rest : Memory) : Memory :=
  if v = Memory.unlisted then rest else (a, v) :: rest

/-- `MEM[a] <- v`, every other cell unchanged (R56, R60). -/
def Memory.write : Memory → Nat → Pattern → Memory
  | [], a, v => Memory.cons a v []
  | (k, w) :: rest, a, v =>
    if a < k then Memory.cons a v ((k, w) :: rest)
    else if a = k then Memory.cons a v rest
    else (k, w) :: Memory.write rest a v

/-! ### The memory controller -/

/-- `0 ≤ a < MEM_SIZE`: the check of R55 and R56 on the signed address (R57). -/
abbrev State.inBounds (s : State) (a : Int) : Prop := 0 ≤ a ∧ a < s.config.memSize

/-- The fault a failed check raises: the word index and the signed address (R58). -/
def boundsFault (s : State) (a : Int) : FaultLatch := .outOfBounds s.pc a

/-- `MemRead(a, 1)`: the cell's pattern, or the fault to raise (R11, R55). -/
def memRead (s : State) (a : Int) : Except FaultLatch Pattern :=
  if s.inBounds a then .ok (s.mem.read a.toNat) else .error (boundsFault s a)

/-- `MEM[a] <- v` in the state, every other cell and `ACC` unchanged (R56). -/
def State.storeCell (s : State) (a : Nat) (v : Pattern) : State :=
  { s with mem := s.mem.write a v }

/-- `MemWrite(a, 1, v)`: the state with the cell written, or the fault to raise (R11, R56). -/
def memWrite (s : State) (a : Int) (v : Pattern) : Except FaultLatch State :=
  if s.inBounds a then .ok (s.storeCell a.toNat v) else .error (boundsFault s a)

/-! ### The accumulator -/

/-- The architectural value of `ACC` (R22). -/
def State.accValue (s : State) : Int := sext12 s.acc

/-- `ACC <- v` (R22, R33). -/
def State.setAcc (s : State) (v : Int) : State := { s with acc := tou12 v }

/-! ### The end of an instruction -/

/-- `pc <- pc + 1` (R13). -/
def State.advance (s : State) : State := { s with pc := s.pc + 1 }

/-- `FAULT <- k` (R12). -/
def State.latch (s : State) (k : FaultLatch) : State := { s with fault := k }

/-- An instruction that raised nothing: `pc <- pc + 1` (R13, R24, R27). -/
def complete (s : State) : Result := .next s.advance

/-- `raise K(info)`: `FAULT <- K(info)` and no write to `ACC`, `MEM` or `pc` (R12, R158, R159). There
is no return from a fault: only the host's `Reset` leaves it (R162, `hostReset`). -/
def raise (k : FaultLatch) (s : State) : Result := .next (s.latch k)

/-- What an illegal opcode raises (R151). -/
def raiseUnknownOpcode (op : Opcode) (s : State) : Result := raise (.unknownOpcode s.pc op) s

/-! ### The sequencer -/

/-- `L`, the number of words of the bound program (R10). -/
def State.progWords (s : State) : Nat := s.prog.length / 2

/-- Decode the word at index `pc`, whose bytes are `PROG[2*pc]` and `PROG[2*pc + 1]` (R24, R27). -/
def fetch (s : State) : Except DecodeError (Instr × List Byte) := decode (s.prog.drop (2 * s.pc))

/-- The run status of R28. -/
inductive RunStatus where
  | halted
  | done
  | running
deriving DecidableEq, Repr

/-- The run status is a function of the state (R28). `pc > L` occurs in no reachable state and counts
as `done` (DESIGN CHOICE, log entry 11). -/
def State.status (s : State) : RunStatus :=
  if s.fault ≠ .none then .halted else if s.pc < s.progWords then .running else .done

/-- The numeric kind code of a fault (R25, R150; the spec's own numbers, decision D3). -/
def faultCode : FaultLatch → Nat
  | .none => 0
  | .unknownOpcode _ _ => 1
  | .outOfBounds _ _ => 2
  | .malformedProgram _ => 3

/-- `PROG` with `word` at the byte offset `off`; a shorter program is first filled up with zero
bytes. Used by `State.withFetchWord` (log entry 9). -/
def placeBytes (prog : List Byte) (off : Nat) (word : List Byte) : List Byte :=
  prog.take off ++ List.replicate (off - prog.length) 0 ++ word ++ prog.drop (off + word.length)

end Sys2Proof.Machine
end

