-- ==== Sys2Proof/Machine/Accumulator.lean ====
section
/-!
DEFINITION. The accumulator arithmetic family: `SGN` (spec 43_sgn.md R145).
-/

namespace Sys2Proof.Machine

/-- `SGN`: `ACC <- sgn(ACC)`, the `ACC` on the right being the value before the step (R145, R33). The
operand field is not read (R90). -/
def execSgn (_ignored : Int) (s : State) : Result := complete (s.setAcc (sgn s.accValue))

end Sys2Proof.Machine
end

