-- ==== Sys2Proof/Machine/ConstantLoad.lean ====
section
/-!
DEFINITION. The constant load family: `LOAD_CONST` (spec 41_load_const.md R130).
-/

namespace Sys2Proof.Machine

/-- `LOAD_CONST c`: `ACC <- c` (R130). -/
def execLoadConst (c : Int) (s : State) : Result := complete (s.setAcc c)

end Sys2Proof.Machine
end

