-- ==== Sys2Proof/Machine/IllegalOpcodes.lean ====
section
/-!
DEFINITION. The illegal opcodes 0, 5, 6 and 7, whose words raise `UnknownOpcode` whatever their
other bits are (spec 30_encoding.md R89; 60_exceptions.md R151).
-/

namespace Sys2Proof.Machine

/-- Opcode 0 (R89, R151). -/
def execIllegal0 (_ignored : Int) (s : State) : Result := raiseUnknownOpcode 0 s

/-- Opcode 5 (R89, R151). -/
def execIllegal5 (_ignored : Int) (s : State) : Result := raiseUnknownOpcode 5 s

/-- Opcode 6 (R89, R151). -/
def execIllegal6 (_ignored : Int) (s : State) : Result := raiseUnknownOpcode 6 s

/-- Opcode 7 (R89, R151). -/
def execIllegal7 (_ignored : Int) (s : State) : Result := raiseUnknownOpcode 7 s

end Sys2Proof.Machine
end

