-- ==== Sys2Proof/Machine/MemoryAccess.lean ====
section
/-!
DEFINITION. The memory access family: `LOAD_MEM` and `STORE_MEM` (spec 42_memory_access.md R135,
R136, R138).
-/

namespace Sys2Proof.Machine

/-- `LOAD_MEM addr`: `ACC <- sext_12(MemRead(addr, 1))` (R135). -/
def execLoadMem (addr : Int) (s : State) : Result :=
  match memRead s addr with
  | .ok u => complete (s.setAcc (sext12 u))
  | .error k => raise k s

/-- `STORE_MEM addr`: `MemWrite(addr, 1, tou_12(ACC))` (R136). -/
def execStoreMem (addr : Int) (s : State) : Result :=
  match memWrite s addr (tou12 s.accValue) with
  | .ok t => complete t
  | .error k => raise k s

end Sys2Proof.Machine
end

