-- ==== Sys2Proof/Machine/Dispatch.lean ====
section
/-!
DEFINITION. What each instruction does: one arm a constructor, the closed dispatch of spec
10_state.md R27.
-/

namespace Sys2Proof.Machine

def exec (i : Instr) (s : State) : Host.Outcome State Fault Refusal :=
  match i with
  | .loadMem addr => Sys2Proof.Machine.execLoadMem addr s
  | .loadConst c => Sys2Proof.Machine.execLoadConst c s
  | .storeMem addr => Sys2Proof.Machine.execStoreMem addr s
  | .sgn ignored => Sys2Proof.Machine.execSgn ignored s
  | .illegal0 ignored => Sys2Proof.Machine.execIllegal0 ignored s
  | .illegal5 ignored => Sys2Proof.Machine.execIllegal5 ignored s
  | .illegal6 ignored => Sys2Proof.Machine.execIllegal6 ignored s
  | .illegal7 ignored => Sys2Proof.Machine.execIllegal7 ignored s

end Sys2Proof.Machine
end

