-- ==== Sys2Proof/Machine/Step.lean ====
section
/-!
DEFINITION. The step of the sequencer `SEQ` (spec 10_state.md R27, R28), and the placing of a word
where the next step fetches it.
-/

namespace Sys2Proof.Machine

/-- `Step()` of R27. It is enabled iff `FAULT = none` and `pc < L`, which is when a whole word is left
to fetch; where it is not enabled there is no next state (R28, log entry 4). -/
def step (s : State) : Host.Outcome State Fault Refusal :=
  if s.fault = .none then
    match fetch s with
    | .ok (i, _) => exec i s
    | .error _ => .fault .done
  else .fault (.halted s.fault)

/-- `s` with the word `w` of `nbits` bits (16 with the zeros above them) at word index `pc` and no
fault latched, so that the next step executes it. This stands for the host's `Start`, which binds
a program from outside the machine (R183; log entry 9). -/
def State.withFetchWord (s : State) (nbits w : Nat) : State :=
  { s with prog := placeBytes s.prog (2 * s.pc) (tableWordBytes nbits w), fault := .none }

end Sys2Proof.Machine
end

