-- ==== Sys2Proof/Machine/Assembler.lean ====
section
/-!
DEFINITION. The assembler's translation of source lines to words (spec 30_encoding.md R95 to R101;
41_load_const.md R131; 42_memory_access.md R137; 43_sgn.md R146). It is software beside the machine
(00_scope.md R5): no step and no host request uses it. A line is the list of its characters; how
a text becomes lines is outside the spec's scope (log entry 18).
-/

namespace Sys2Proof.Machine

/-- Why a line gives no word (R99, R100). -/
inductive AsmError where
  /-- The mnemonic is not in the closed set (R99). -/
  | unknownOpcode
  /-- A required operand token is missing or no base-10 integer (R99). -/
  | malformedOperand
  /-- The operand is outside `-2048 .. 2047` (R100, decision D14). -/
  | operandOutOfRange
  /-- A line the spec does not describe: no token, or a token after the last one a mnemonic takes
  (93_implementation_defined.md U17; log entry 18). -/
  | undescribed
deriving DecidableEq, Repr

/-- The four mnemonics (R96, R101). -/
inductive Mnemonic where
  | loadConst
  | loadMem
  | storeMem
  | sgn
deriving DecidableEq, Repr

/-- The tokens of a line, separated by white space; `current` is the token being read, last character
first (R95). -/
def tokensFrom : List Char → List Char → List (List Char)
  | current, [] => if current = [] then [] else [current.reverse]
  | current, c :: rest =>
    if c.isWhitespace then
      if current = [] then tokensFrom [] rest else current.reverse :: tokensFrom [] rest
    else tokensFrom (c :: current) rest

/-- The tokens of a line (R95). -/
def tokens (line : List Char) : List (List Char) := tokensFrom [] line

/-- The mnemonic a token names, without regard to case (R95, R96). -/
def mnemonicOf (token : List Char) : Option Mnemonic :=
  let t := token.map Char.toLower
  if t = ['l', 'o', 'a', 'd', '_', 'c', 'o', 'n', 's', 't'] then some .loadConst
  else if t = ['l', 'o', 'a', 'd', '_', 'm', 'e', 'm'] then some .loadMem
  else if t = ['s', 't', 'o', 'r', 'e', '_', 'm', 'e', 'm'] then some .storeMem
  else if t = ['s', 'g', 'n'] then some .sgn
  else none

/-- The value of a run of decimal digits that follow digits of the value `high`. -/
def digitsFrom : Nat → List Char → Option Nat
  | high, [] => some high
  | high, c :: rest =>
    if c.isDigit then digitsFrom (10 * high + (c.toNat - '0'.toNat)) rest else none

/-- A non-empty run of decimal digits (R97). -/
def naturalOf (token : List Char) : Option Nat := if token = [] then none else digitsFrom 0 token

/-- A base-10 integer, negative with a leading minus sign (R97). -/
def integerOf : List Char → Option Int
  | '-' :: digits => (naturalOf digits).map (fun n => -(n : Int))
  | digits => (naturalOf digits).map (fun n => (n : Int))

/-- The instruction of a mnemonic with its operand (R96, R97); `SGN` has operand 0. -/
def Mnemonic.instr : Mnemonic → Int → Instr
  | .loadConst, z => .loadConst z
  | .loadMem, z => .loadMem z
  | .storeMem, z => .storeMem z
  | .sgn, _ => .sgn 0

/-- An operand token in range (R99, R100). -/
def operandOf (token : List Char) : Except AsmError Int :=
  match integerOf token with
  | none => .error .malformedOperand
  | some z => if InOperandRange z then .ok z else .error .operandOutOfRange

/-- The tokens after the mnemonic (R97, R99). -/
def assembleArgs : Mnemonic → List (List Char) → Except AsmError Instr
  | .sgn, [] => .ok (.sgn 0)
  | .sgn, _ :: _ => .error .undescribed
  | _, [] => .error .malformedOperand
  | m, [k] => (operandOf k).map m.instr
  | _, _ :: _ :: _ => .error .undescribed

/-- One line of source (R95 to R100). -/
def assembleLine (line : List Char) : Except AsmError Instr :=
  match tokens line with
  | [] => .error .undescribed
  | m :: args =>
    match mnemonicOf m with
    | none => .error .unknownOpcode
    | some mnemonic => assembleArgs mnemonic args

/-- The word stream of a source, one word a line in order; the first error aborts it all (R95, R98,
R99). -/
def assemble : List (List Char) → Except AsmError (List Byte)
  | [] => .ok []
  | line :: rest =>
    match assembleLine line with
    | .error e => .error e
    | .ok i =>
      match assemble rest with
      | .error e => .error e
      | .ok bytes => .ok (encode i ++ bytes)

end Sys2Proof.Machine
end

