-- ==== Sys2Proof/Machine/HostPort.lean ====
section
/-!
DEFINITION. The host's requests `Reset`, `Start`, `Snapshot` and the reading of `FAULT`, `pc` and the
run status (spec 10_state.md R34; 20_memory.md R59; 70_reset_and_hazards.md R180, R183, R187). The
host acts only between steps (R19, R187), so each request is one function of the state.
-/

namespace Sys2Proof.Machine

/-- What the host can ask (R187). -/
inductive Request where
  | reset
  | start (bytes : List Byte)
  | snapshot (first last : Int)
  | observe
deriving DecidableEq, Repr

/-- What the host gets back (R187). -/
inductive Reply where
  /-- Nothing. -/
  | nothing
  /-- The pairs of an address and the signed value of its cell (R59). -/
  | pairs (ps : List (Int × Int))
  /-- `SnapErr(OutOfBounds, start, end)` (R59, R154). -/
  | snapErr (first last : Int)
  /-- The values of `FAULT`, `pc` and the run status (R34). -/
  | observed (fault : FaultLatch) (pc : Nat) (status : RunStatus)
deriving DecidableEq, Repr

/-- How a host request ends: served or answered with an error (`next`), or refused (R19). -/
abbrev HostResult := Host.Outcome (State × Reply) Fault Refusal

/-- `Reset()`: every piece of state to its reset value, `MEM_SIZE` as it was; admitted in every state
and the only way out of a halt (R180, R162). -/
def hostReset (s : State) : HostResult := .next (State.resetWith s.config, .nothing)

/-- `PROG <- bytes` and `pc <- 0` (R183). -/
def State.bindProgram (s : State) (bytes : List Byte) : State := { s with prog := bytes, pc := 0 }

/-- `Start(bytes)` (R183; the odd length R153; decisions D5, D17). -/
def hostStart (bytes : List Byte) (s : State) : HostResult :=
  if s.fault ≠ .none then .refused .startWhileHalted
  else if s.pc < s.progWords then .refused .startWhileRunning
  else if bytes.length % 2 = 1 then
    .next (s.latch (.malformedProgram bytes.length), .nothing)
  else .next (s.bindProgram bytes, .nothing)

/-- The `count` pairs a snapshot reports from address `first` on, in ascending order (R59). -/
def snapshotPairs (m : Memory) (first : Int) : Nat → List (Int × Int)
  | 0 => []
  | count + 1 => (first, sext12 (m.read first.toNat)) :: snapshotPairs m (first + 1) count

/-- `Snapshot(start, end)` (R59; decisions D11, D12); it changes no state in any case. -/
def hostSnapshot (first last : Int) (s : State) : HostResult :=
  if s.fault ≠ .none then .refused .snapshotWhileHalted
  else if first > last then .refused .snapshotReversed
  else if first < 0 ∨ last ≥ s.config.memSize then .next (s, .snapErr first last)
  else .next (s, .pairs (snapshotPairs s.mem first (last - first + 1).toNat))

/-- The host reads `FAULT`, `pc` and the status, in any state (R34, R187). -/
def hostObserve (s : State) : HostResult := .next (s, .observed s.fault s.pc s.status)

/-- One request of the host (R187). -/
def serve (r : Request) (s : State) : HostResult :=
  match r with
  | .reset => hostReset s
  | .start bytes => hostStart bytes s
  | .snapshot first last => hostSnapshot first last s
  | .observe => hostObserve s

end Sys2Proof.Machine
end

