-- ==== Sys2Proof/Machine/Run.lean ====
section
/-!
DEFINITION. The run after a `Start`, the whole `interpret` operation, and the machine's moves: a step
or a host request (spec 00_scope.md R19; 70_reset_and_hazards.md R184 to R186).
-/

namespace Sys2Proof.Machine

/-- `Step` repeated for as long as it is enabled, at most `n` times (R184). -/
def runSteps : Nat → State → State
  | 0, s => s
  | n + 1, s =>
    match step s with
    | .next t => runSteps n t
    | .fault _ => s
    | .refused _ => s

/-- The run to its end: a program of `L` words takes at most `L` steps (R184). -/
def runToEnd (s : State) : State := runSteps s.progWords s

/-- The result of `Interpret` (R186). -/
inductive Report where
  /-- `Error(FAULT)`. -/
  | error (fault : FaultLatch)
  /-- What the snapshot answered. -/
  | snapshot (reply : Reply)
deriving DecidableEq, Repr

/-- The end of `Interpret`: the fault if there is one, else a snapshot (R186, R161). -/
def report (first last : Int) (s : State) : Host.Outcome Report Fault Refusal :=
  if s.fault ≠ .none then .next (.error s.fault)
  else
    match hostSnapshot first last s with
    | .next (_, reply) => .next (.snapshot reply)
    | .fault f => .fault f
    | .refused r => .refused r

/-- `Interpret(bytes, start, end)` of R186 on a machine with the parameters `c`: `Reset`, `Start`, run to
the end, one `Snapshot`. -/
def interpret (c : Config) (bytes : List Byte) (first last : Int) :
    Host.Outcome Report Fault Refusal :=
  match hostStart bytes (State.resetWith c) with
  | .next (s, _) => report first last (runToEnd s)
  | .fault f => .fault f
  | .refused r => .refused r

/-- What can happen next: a step of the machine or a request of the host (R19). -/
inductive Move where
  | step
  | host (r : Request)
deriving DecidableEq, Repr

/-- The state a move leads to, if it leads to one. -/
def move (m : Move) (s : State) : Option State :=
  match m with
  | .step =>
    match step s with
    | .next t => some t
    | .fault _ => none
    | .refused _ => none
  | .host r =>
    match serve r s with
    | .next (t, _) => some t
    | .fault _ => none
    | .refused _ => none

end Sys2Proof.Machine
end

