-- ==== Sys2Proof/Safety.lean ====
section
/-!
DEFINITION. What a good state and a good run are, in the terms the statements use: the invariant of
the machine (spec 10_state.md R21, R23 to R26; 20_memory.md R52), the states it can reach from
reset (R19), and the two ways a run ends (70_reset_and_hazards.md R185).
-/

namespace Sys2Proof.Machine

/-- A step is enabled (R27). -/
abbrev Enabled (s : State) : Prop := s.fault = .none ∧ s.pc < s.progWords

/-- The word at index `pc` has the bytes `byte1` and `byte2` (R14, R24). -/
abbrev WordAt (s : State) (byte1 byte2 : Byte) : Prop :=
  s.prog[2 * s.pc]? = some byte1 ∧ s.prog[2 * s.pc + 1]? = some byte2

/-- The program and the size of the memory are as they were: no instruction writes them (R26, R23). -/
abbrev KeepsProgram (s t : State) : Prop := t.prog = s.prog ∧ t.config = s.config

/-- None of the `n` words from index `first` on is `STORE_MEM a`. -/
def NoStoreTo (prog : List Byte) (a : Int) (first n : Nat) : Prop :=
  ∀ j, first ≤ j → j < first + n →
    ∀ i rest, decode (prog.drop (2 * j)) = .ok (i, rest) → i ≠ .storeMem a

/-- What the value of `FAULT` says about the rest of the state (R25, R150, R159). -/
def LatchFits (s : State) : Prop :=
  match s.fault with
  | .none => True
  | .unknownOpcode idx opc =>
    idx = s.pc ∧ opcodeOf (s.prog.getD (2 * idx) 0) = opc ∧ legalOpcode opc = false ∧
      idx < s.progWords
  | .outOfBounds idx addr =>
    idx = s.pc ∧ idx < s.progWords ∧ InOperandRange addr ∧ ¬ s.inBounds addr
  | .malformedProgram len => len % 2 = 1 ∧ s.pc = s.progWords

/-- The invariant of the machine. -/
structure Inv (s : State) : Prop where
  /-- The memory is in canonical form. -/
  memWf : s.mem.wf
  /-- Only cells that exist are listed (R52). -/
  memInside : ∀ e ∈ s.mem, e.1 < s.config.memSize
  /-- Cells no instruction can name hold 0 for ever (R52). -/
  memReach : ∀ e ∈ s.mem, e.1 < 2048
  /-- Only programs of whole words are bound (R51, R153). -/
  progEven : s.prog.length % 2 = 0
  /-- `pc` never exceeds `L` (R24). -/
  pcLe : s.pc ≤ s.progWords
  /-- `FAULT` tells the truth. -/
  latch : LatchFits s

/-- The states of a machine with the parameters `c` that steps and host requests reach from reset. -/
inductive Reachable (c : Config) : State → Prop where
  | reset : Reachable c (State.resetWith c)
  | move {s t : State} (m : Move) : Reachable c s → move m s = some t → Reachable c t

/-- The run has ended normally (R185). -/
abbrev EndedNormally (s : State) : Prop := s.fault = .none ∧ s.pc = s.progWords

/-- The run has ended by fault (R185). -/
abbrev EndedByFault (s : State) : Prop := s.fault ≠ .none

end Sys2Proof.Machine
end

