-- ==== Sys2Proof/Certificates/Slice0/Obligations.lean ====
section
/-!
DEFINITION. The statements about the machine, in the order of spec/: the decoder, the converter, the
instructions, the step, faults, reset and host, runs, the assembler.
-/

open Sys2Proof Sys2Proof.Machine

/-! ### The decoder -/

/-- R82, R83: the two fields by the source's formulas and bit by bit. -/
def Obligations.DecoderExtractsFields : Prop :=
  ∀ byte1 byte2 : Byte,
    (decodeFields byte1 byte2).opcode.toNat = byte1.toNat &&& 0b111 ∧
    (decodeFields byte1 byte2).rawOperand.toNat =
      ((byte1.toNat >>> 3) ||| (byte2.toNat <<< 5)) &&& 0xFFF ∧
    (∀ k, k < 5 → (decodeFields byte1 byte2).rawOperand.getLsbD k = byte1.getLsbD (k + 3)) ∧
    (∀ k, k < 7 → (decodeFields byte1 byte2).rawOperand.getLsbD (k + 5) = byte2.getLsbD k)

/-- The decoded operand is the sign-extended field (R85). That the decoded instruction carries it is the
model's choice for the illegal opcodes (DESIGN CHOICE, log entry 6) and its inference for `SGN`
(DEDUCED, log entry 7). -/
def Obligations.OperandIsSignExtendedForEveryOpcode : Prop :=
  ∀ byte1 byte2 : Byte,
    (decodeFields byte1 byte2).operand =
      (if (decodeFields byte1 byte2).rawOperand.toNat ≤ 2047
        then ((decodeFields byte1 byte2).rawOperand.toNat : Int)
        else ((decodeFields byte1 byte2).rawOperand.toNat : Int) - 4096) ∧
    (decodeWord byte1 byte2).operand = (decodeFields byte1 byte2).operand ∧
    -2048 ≤ (decodeWord byte1 byte2).operand ∧ (decodeWord byte1 byte2).operand ≤ 2047

/-- The opcode map by R88's mask and match values on `w16`; the set is closed. That the constructors of
the illegal opcodes carry the decoded operand is the model's choice (DESIGN CHOICE, log entry 6),
and that the constructor of `SGN` does is its inference (DEDUCED, log entry 7); R88 gives these five
rows no operand. -/
def Obligations.OpcodeMapIsClosed : Prop :=
  ∀ byte1 byte2 : Byte,
    let w16 := byte1.toNat + 256 * byte2.toNat
    let z := (decodeFields byte1 byte2).operand
    (w16 &&& 0x0007 = 0x0000 → decodeWord byte1 byte2 = .illegal0 z) ∧
    (w16 &&& 0x0007 = 0x0001 → decodeWord byte1 byte2 = .loadMem z) ∧
    (w16 &&& 0x0007 = 0x0002 → decodeWord byte1 byte2 = .loadConst z) ∧
    (w16 &&& 0x0007 = 0x0003 → decodeWord byte1 byte2 = .storeMem z) ∧
    (w16 &&& 0x0007 = 0x0004 → decodeWord byte1 byte2 = .sgn z) ∧
    (w16 &&& 0x0007 = 0x0005 → decodeWord byte1 byte2 = .illegal5 z) ∧
    (w16 &&& 0x0007 = 0x0006 → decodeWord byte1 byte2 = .illegal6 z) ∧
    (w16 &&& 0x0007 = 0x0007 → decodeWord byte1 byte2 = .illegal7 z) ∧
    ((decodeFields byte1 byte2).legal = true ↔
      w16 &&& 0x0007 = 1 ∨ w16 &&& 0x0007 = 2 ∨ w16 &&& 0x0007 = 3 ∨ w16 &&& 0x0007 = 4)

/-- Every instruction is one word of exactly 2 bytes (R80). That every list of at least two bytes
decodes is the totality of R86, which the spec marks as derived; that the illegal opcodes are packed
too is the model's choice (DESIGN CHOICE, log entry 6). -/
def Obligations.EveryInstructionIsTwoBytes : Prop :=
  (∀ bytes i rest, decode bytes = .ok (i, rest) →
    ∃ byte1 byte2, bytes = byte1 :: byte2 :: rest) ∧
  (∀ bytes, 2 ≤ bytes.length → ∃ i rest, decode bytes = .ok (i, rest)) ∧
  (∀ i, (encode i).length = 2)

/-- Bit 7 of `byte2` reaches no output of the decoder (the spec's decision D9). -/
def Obligations.DecoderIgnoresTopBit : Prop :=
  ∀ byte1 byte2 : Byte,
    decodeFields byte1 (byte2 ||| 0x80) = decodeFields byte1 (byte2 &&& 0x7F) ∧
    decodeWord byte1 (byte2 ||| 0x80) = decodeWord byte1 byte2 ∧
    decodeWord byte1 (byte2 &&& 0x7F) = decodeWord byte1 byte2

/-- R93: the packed bytes of the four instructions by the source's formulas. -/
def Obligations.PackingFollowsLayout : Prop :=
  ∀ i : Instr, i.wf → legalOpcode (opcodeNumber i) = true →
    ∃ byte1 byte2, encode i = [byte1, byte2] ∧
      byte1.toNat =
        (opcodeNumber i).toNat ||| (((toUnsigned i.operand 12).toNat &&& 0x1F) <<< 3) ∧
      byte2.toNat = ((toUnsigned i.operand 12).toNat >>> 5) &&& 0x7F ∧
      decode [byte1, byte2] = .ok (i, [])

/-- Decoding what the packing function makes gives the instruction back, with any bytes after it. That
it makes words of the illegal opcodes is the model's choice (DESIGN CHOICE, log entry 6). -/
def Obligations.DecodeInvertsEncode : Prop :=
  ∀ (i : Instr) (rest : List Byte), i.wf → decode (encode i ++ rest) = .ok (i, rest)

/-- Packing a decoded word recovers it but for the ignored bit; for the illegal opcodes this rests on the
model's choices (DESIGN CHOICE, log entry 6). -/
def Obligations.EncodeInvertsDecode : Prop :=
  ∀ byte1 byte2 : Byte, encode (decodeWord byte1 byte2) = [byte1, byte2 &&& 0x7F]

/-- Two words stand for one instruction exactly when they differ in the ignored bit at most; for the
illegal opcodes this rests on their constructors keeping the operand (DESIGN CHOICE, log entry 6),
for `SGN` on the same (DEDUCED, log entry 7). -/
def Obligations.TwoWordsForEachInstruction : Prop :=
  ∀ b1 b2 c1 c2 : Byte,
    decodeWord b1 b2 = decodeWord c1 c2 ↔ b1 = c1 ∧ b2 &&& 0x7F = c2 &&& 0x7F

/-- Words written out from the format decode to what they stand for, one for each opcode. That the
illegal opcodes' instructions carry an operand is the model's choice (DESIGN CHOICE, log entry 6),
that `SGN` does its inference (DEDUCED, log entry 7). -/
def Obligations.WordsOfEveryFamilyDecode : Prop :=
  decode [0b11110001, 0b00000000] = .ok (.loadMem 30, []) ∧
  decode [0b10011010, 0b00000101] = .ok (.loadConst 179, []) ∧
  decode [0b11111011, 0b01111111] = .ok (.storeMem (-1), []) ∧
  decode [0b11111100, 0b11111111] = .ok (.sgn (-1), []) ∧
  decode [0b00000000, 0b01000000] = .ok (.illegal0 (-2048), []) ∧
  decode [0b11111101, 0b01111111] = .ok (.illegal5 (-1), []) ∧
  decode [0b00000110, 0b00000001] = .ok (.illegal6 32, []) ∧
  decode [0b11111111, 0b00111111] = .ok (.illegal7 2047, [])

/-! ### The converter -/

/-- R110: sign extension of a 12-bit pattern. -/
def Obligations.SignExtendFormula : Prop :=
  ∀ u : Pattern,
    (u.toNat > 2047 → sext12 u = (u.toNat : Int) - 4096) ∧
    (u.toNat ≤ 2047 → sext12 u = u.toNat) ∧
    sext12 u = signExtend u.toNat 12 ∧ -2048 ≤ sext12 u ∧ sext12 u ≤ 2047

/-- R111: the conversion back, the exact inverse on its domain. -/
def Obligations.ToUnsignedIsExactInverse : Prop :=
  (∀ s : Int, -2048 ≤ s → s ≤ 2047 →
    ((tou12 s).toNat : Int) = (if s < 0 then s + 4096 else s) ∧
    toUnsigned s 12 = (tou12 s).toNat ∧ sext12 (tou12 s) = s) ∧
  (∀ u : Pattern, tou12 (sext12 u) = u)

/-- The sign function and its fixed points (R113), and its form on the accumulator's pattern, the
sentence of R113 that the spec marks as derived from R110 and R111. -/
def Obligations.SignFunction : Prop :=
  (∀ s : Int, (s < 0 → sgn s = -1) ∧ (s = 0 → sgn s = 0) ∧ (s > 0 → sgn s = 1)) ∧
  (∀ s : Int, sgn (sgn s) = sgn s) ∧
  (∀ p : Pattern, tou12 (sgn (sext12 p)) =
    if p.getLsbD 11 then 0xFFF else if p = 0 then 0 else 1)

/-! ### The instructions, as `exec` gives them -/

/-- `LOAD_CONST` completes in every state, and what it leaves. -/
def Obligations.LoadConstCompletes : Prop :=
  ∀ (c : Int) (s : State), InOperandRange c →
    ∃ t, exec (.loadConst c) s = .next t ∧ t.accValue = c ∧ t.pc = s.pc + 1 ∧
      t.mem = s.mem ∧ t.fault = s.fault ∧ KeepsProgram s t

/-- `LOAD_MEM` completes where its address is in bounds, and what it leaves. -/
def Obligations.LoadMemCompletes : Prop :=
  ∀ (addr : Int) (s : State), 0 ≤ addr → addr < s.config.memSize →
    ∃ t, exec (.loadMem addr) s = .next t ∧ t.accValue = sext12 (s.mem.read addr.toNat) ∧
      t.pc = s.pc + 1 ∧ t.mem = s.mem ∧ t.fault = s.fault ∧ KeepsProgram s t

/-- `STORE_MEM` completes where its address is in bounds, and what it leaves. -/
def Obligations.StoreMemCompletes : Prop :=
  ∀ (addr : Int) (s : State), s.mem.wf → 0 ≤ addr → addr < s.config.memSize →
    ∃ t, exec (.storeMem addr) s = .next t ∧
      ((t.mem.read addr.toNat).toNat : Int) = toUnsigned s.accValue 12 ∧
      (∀ a, a ≠ addr.toNat → t.mem.read a = s.mem.read a) ∧ t.mem.wf ∧
      t.acc = s.acc ∧ t.pc = s.pc + 1 ∧ t.fault = s.fault ∧ KeepsProgram s t

/-- `SGN` completes in every state whatever its operand field, and what it leaves. -/
def Obligations.SgnCompletes : Prop :=
  ∀ (z : Int) (s : State),
    ∃ t, exec (.sgn z) s = .next t ∧
      (s.accValue < 0 → t.accValue = -1) ∧ (s.accValue = 0 → t.accValue = 0) ∧
      (s.accValue > 0 → t.accValue = 1) ∧
      t.pc = s.pc + 1 ∧ t.mem = s.mem ∧ t.fault = s.fault ∧ KeepsProgram s t

/-- Each illegal opcode raises `UnknownOpcode` in every state, whatever its operand field. -/
def Obligations.IllegalOpcodesRaise : Prop :=
  ∀ (z : Int) (s : State),
    exec (.illegal0 z) s = .next { s with fault := .unknownOpcode s.pc 0 } ∧
    exec (.illegal5 z) s = .next { s with fault := .unknownOpcode s.pc 5 } ∧
    exec (.illegal6 z) s = .next { s with fault := .unknownOpcode s.pc 6 } ∧
    exec (.illegal7 z) s = .next { s with fault := .unknownOpcode s.pc 7 }

/-- An address outside `0 .. MEM_SIZE - 1` raises `OutOfBounds` with the signed address, and nothing
else changes (the spec's decision D6). -/
def Obligations.OutOfBoundsAddressRaises : Prop :=
  ∀ (addr : Int) (s : State), addr < 0 ∨ addr ≥ s.config.memSize →
    exec (.loadMem addr) s = .next { s with fault := .outOfBounds s.pc addr } ∧
    exec (.storeMem addr) s = .next { s with fault := .outOfBounds s.pc addr }

/-- The frame of the instructions that store nothing: `LOAD_MEM`, `LOAD_CONST`, `SGN` and the illegal
opcodes. Every cell, the program and the size stay; the accumulator stays in an illegal opcode and
in any instruction that raises. -/
def Obligations.NonStoringFrame : Prop :=
  ∀ (i : Instr) (s t : State), (∀ addr, i ≠ .storeMem addr) → exec i s = .next t →
    (∀ a, t.mem.read a = s.mem.read a) ∧ KeepsProgram s t ∧
    (legalOpcode (opcodeNumber i) = false → t.acc = s.acc ∧ t.pc = s.pc) ∧
    (t.pc = s.pc → t.acc = s.acc) ∧ (t.pc ≠ s.pc → t.fault = s.fault)

/-- The frame of `STORE_MEM`: the accumulator stays, and every cell but the one addressed. -/
def Obligations.StoringFrame : Prop :=
  ∀ (addr : Int) (s t : State), exec (.storeMem addr) s = .next t →
    (∀ a : Nat, s.inBounds addr → a ≠ addr.toNat → t.mem.read a = s.mem.read a) ∧
    (¬ s.inBounds addr → ∀ a, t.mem.read a = s.mem.read a) ∧
    t.acc = s.acc ∧ KeepsProgram s t ∧ (t.pc ≠ s.pc → t.fault = s.fault)

/-- The bounds check in bits: bit 11 clear and the low 11 bits below `MEM_SIZE`. -/
def Obligations.BoundsCheckInBits : Prop :=
  ∀ (s : State) (raw : Pattern),
    s.inBounds (sext12 raw) ↔
      raw.getLsbD 11 = false ∧ (raw.extractLsb' 0 11).toNat < s.config.memSize

/-- A store and then a load of the same address leave the accumulator's value as it was. -/
def Obligations.StoreThenLoadKeepsAccumulator : Prop :=
  ∀ (addr : Int) (s t u : State), s.mem.wf → s.inBounds addr →
    exec (.storeMem addr) s = .next t → exec (.loadMem addr) t = .next u →
    u.acc = s.acc ∧ u.accValue = s.accValue

/-- `SGN` twice is `SGN` once. -/
def Obligations.SgnTwiceIsSgnOnce : Prop :=
  ∀ (y z : Int) (s t u : State), exec (.sgn y) s = .next t → exec (.sgn z) t = .next u →
    u.acc = t.acc

/-! ### The instructions, as words the step executes -/

/-- R130: what a `LOAD_CONST` word does. -/
def Obligations.LoadConstWord : Prop :=
  ∀ (s : State) (byte1 byte2 : Byte) (c : Int), s.fault = .none → WordAt s byte1 byte2 →
    opcodeOf byte1 = 2 → InOperandRange c → rawOperandOf byte1 byte2 = tou12 c →
    ∃ t, step s = .next t ∧ t.accValue = c ∧ t.mem = s.mem ∧ t.pc = s.pc + 1 ∧
      t.fault = .none ∧ KeepsProgram s t

/-- R135: what a `LOAD_MEM` word does, in bounds and out. -/
def Obligations.LoadMemWord : Prop :=
  ∀ (s : State) (byte1 byte2 : Byte) (addr : Int), s.fault = .none → WordAt s byte1 byte2 →
    opcodeOf byte1 = 1 → InOperandRange addr → rawOperandOf byte1 byte2 = tou12 addr →
    (0 ≤ addr ∧ addr < s.config.memSize →
      ∃ t, step s = .next t ∧ t.accValue = sext12 (s.mem.read addr.toNat) ∧ t.mem = s.mem ∧
        t.pc = s.pc + 1 ∧ t.fault = .none ∧ KeepsProgram s t) ∧
    (addr < 0 ∨ addr ≥ s.config.memSize →
      ∃ t, step s = .next t ∧ t.fault = .outOfBounds s.pc addr ∧ t.acc = s.acc ∧ t.mem = s.mem ∧
        t.pc = s.pc ∧ KeepsProgram s t ∧ step t = .fault (.halted t.fault))

/-- R136: what a `STORE_MEM` word does, in bounds and out. -/
def Obligations.StoreMemWord : Prop :=
  ∀ (s : State) (byte1 byte2 : Byte) (addr : Int), s.mem.wf → s.fault = .none →
    WordAt s byte1 byte2 → opcodeOf byte1 = 3 → InOperandRange addr →
    rawOperandOf byte1 byte2 = tou12 addr →
    (0 ≤ addr ∧ addr < s.config.memSize →
      ∃ t, step s = .next t ∧ ((t.mem.read addr.toNat).toNat : Int) = toUnsigned s.accValue 12 ∧
        (∀ a, a ≠ addr.toNat → t.mem.read a = s.mem.read a) ∧ t.acc = s.acc ∧
        t.pc = s.pc + 1 ∧ t.fault = .none ∧ KeepsProgram s t) ∧
    (addr < 0 ∨ addr ≥ s.config.memSize →
      ∃ t, step s = .next t ∧ t.fault = .outOfBounds s.pc addr ∧ t.acc = s.acc ∧ t.mem = s.mem ∧
        t.pc = s.pc ∧ KeepsProgram s t ∧ step t = .fault (.halted t.fault))

/-- R145: what an `SGN` word does, whatever its operand field and ignored bit hold. -/
def Obligations.SgnWord : Prop :=
  ∀ (s : State) (byte1 byte2 : Byte), s.fault = .none → WordAt s byte1 byte2 →
    opcodeOf byte1 = 4 →
    ∃ t, step s = .next t ∧ (s.accValue < 0 → t.accValue = -1) ∧
      (s.accValue = 0 → t.accValue = 0) ∧ (s.accValue > 0 → t.accValue = 1) ∧
      t.mem = s.mem ∧ t.pc = s.pc + 1 ∧ t.fault = .none ∧ KeepsProgram s t

/-- R89, R151: a word with an opcode outside `{1, 2, 3, 4}` raises `UnknownOpcode` when it is reached;
what the words before it did stands and no word after it executes. -/
def Obligations.UnknownOpcodeWord : Prop :=
  ∀ (s : State) (byte1 byte2 : Byte), s.fault = .none → WordAt s byte1 byte2 →
    (opcodeOf byte1 = 0 ∨ opcodeOf byte1 = 5 ∨ opcodeOf byte1 = 6 ∨ opcodeOf byte1 = 7) →
    ∃ t, step s = .next t ∧ t.fault = .unknownOpcode s.pc (opcodeOf byte1) ∧ t.acc = s.acc ∧
      t.mem = s.mem ∧ t.pc = s.pc ∧ KeepsProgram s t ∧ step t = .fault (.halted t.fault)

/-! ### The step -/

/-- A step runs the decoded instruction and nothing around it. -/
def Obligations.StepRunsDecodedInstruction : Prop :=
  ∀ (s : State) (i : Instr) (rest : List Byte), s.fault = .none →
    decode (s.prog.drop (2 * s.pc)) = .ok (i, rest) → i.wf ∧ step s = exec i s

/-- R27: when a step is enabled, which bytes it takes, the closed dispatch over the eight opcodes, and
`pc` after it. -/
def Obligations.StepFollowsSequencer : Prop :=
  ∀ s : State,
    (s.fault = .none ∧ s.pc < s.prog.length / 2 →
      ∃ byte1 byte2 t, s.prog[2 * s.pc]? = some byte1 ∧ s.prog[2 * s.pc + 1]? = some byte2 ∧
        step s = .next t ∧
        (opcodeOf byte1 = 1 → execLoadMem (decodeFields byte1 byte2).operand s = .next t) ∧
        (opcodeOf byte1 = 2 → execLoadConst (decodeFields byte1 byte2).operand s = .next t) ∧
        (opcodeOf byte1 = 3 → execStoreMem (decodeFields byte1 byte2).operand s = .next t) ∧
        (opcodeOf byte1 = 4 → ∀ z, execSgn z s = .next t) ∧
        (legalOpcode (opcodeOf byte1) = false →
          t = { s with fault := .unknownOpcode s.pc (opcodeOf byte1) }) ∧
        (t.fault = .none → t.pc = s.pc + 1)) ∧
    (¬ (s.fault = .none ∧ s.pc < s.prog.length / 2) → ∀ t, step s ≠ .next t)

/-- Exactly one status holds, a step answers a next state exactly in a running machine, and it never
refuses. -/
def Obligations.StepEnabledIffRunning : Prop :=
  ∀ s : State,
    (s.status = .running ↔ ∃ t, step s = .next t) ∧
    (s.status = .done ↔ step s = .fault .done) ∧
    (s.status = .halted ↔ step s = .fault (.halted s.fault)) ∧
    (∀ r, step s ≠ .refused r)

/-- A step completes with `pc` one more, or raises and changes nothing but `FAULT` (the spec's
decision D4). -/
def Obligations.FaultsArePrecise : Prop :=
  ∀ s t : State, step s = .next t →
    (t.fault = .none ∧ t.pc = s.pc + 1) ∨
    (t.fault ≠ .none ∧ t = { s with fault := t.fault })

/-- The fetch reads only the program space: two machines with the same `PROG`, `pc` and `FAULT` execute
the same instruction, whatever their cells, accumulators and memory sizes; and no step changes
the program. -/
def Obligations.FetchIgnoresDataSpace : Prop :=
  ∀ s u : State, s.prog = u.prog → s.pc = u.pc → s.fault = u.fault → Enabled s →
    ∃ i, step s = exec i s ∧ step u = exec i u ∧
      (∀ t, step s = .next t → t.prog = s.prog)

/-! ### The invariant -/

/-- The invariant holds at reset, for every memory size. -/
def Obligations.InvariantHoldsAtReset : Prop :=
  Inv State.reset ∧ ∀ c : Config, Inv (State.resetWith c)

/-- Every step keeps the invariant. -/
def Obligations.StepKeepsInvariant : Prop :=
  ∀ s t : State, Inv s → step s = .next t → Inv t

/-- Every host request that is served keeps the invariant. -/
def Obligations.HostRequestKeepsInvariant : Prop :=
  ∀ (r : Request) (s t : State) (reply : Reply), Inv s → serve r s = .next (t, reply) → Inv t

/-- Every state that steps and host requests reach from reset meets the invariant and keeps the
memory size. -/
def Obligations.ReachableStatesMeetInvariant : Prop :=
  ∀ (c : Config) (s : State), Reachable c s → Inv s ∧ s.config = c

/-- Cells at 2048 and above hold 0 in every state that meets the invariant (R52, a sentence the spec
marks as derived). At an address of `MEM_SIZE` or above the spec has no cell; that the model's read
gives 0 there is its choice (DESIGN CHOICE, log entry 3). -/
def Obligations.UnreachableCellsHoldZero : Prop :=
  ∀ (s : State) (a : Nat), Inv s → a ≥ 2048 ∨ a ≥ s.config.memSize → s.mem.read a = 0

/-! ### Reset, faults and the host -/

/-- `Reset` in any state, a halted one too, leaves the reset values; `State.reset` has them. The values of
`pc`, `FAULT` and `PROG` are the spec's decisions D2 and D3. -/
def Obligations.ResetLeavesResetValues : Prop :=
  (∀ s : State, ∃ t, serve .reset s = .next (t, .nothing) ∧ t.accValue = 0 ∧
    (∀ a, t.mem.read a = 0) ∧ t.pc = 0 ∧ t.fault = .none ∧ t.prog = [] ∧
    t.config = s.config ∧ t.status = .done) ∧
  (State.reset.accValue = 0 ∧ (∀ a, State.reset.mem.read a = 0) ∧ State.reset.pc = 0 ∧
    State.reset.fault = .none ∧ State.reset.prog = [] ∧ State.reset.config.memSize = 256)

/-- A halted machine makes no step, starts no program and serves no snapshot (the spec's decisions D3,
D12, D16). -/
def Obligations.HaltedMachineTakesOnlyReset : Prop :=
  ∀ s : State, s.fault ≠ .none →
    (∀ t, step s ≠ .next t) ∧
    (∀ bytes, serve (.start bytes) s = .refused .startWhileHalted) ∧
    (∀ first last, serve (.snapshot first last) s = .refused .snapshotWhileHalted) ∧
    (∃ t, serve .reset s = .next (t, .nothing) ∧ t.fault = .none)

/-- `FAULT` is sticky: a move from a halted state is the host's `Reset`, or a read that changes nothing
(the spec's decision D3). -/
def Obligations.FaultIsSticky : Prop :=
  ∀ (m : Move) (s t : State), s.fault ≠ .none → move m s = some t → m = .host .reset ∨ t = s

/-- No move changes the size of the memory. -/
def Obligations.MemorySizeIsFixed : Prop :=
  ∀ (m : Move) (s t : State), move m s = some t → t.config = s.config

/-- `Start` on a machine that has ended normally: it binds an even stream with `ACC` and `MEM` kept, and
latches `MalformedProgram` for an odd one with nothing else changed; while a run is in progress it
is refused (the spec's decisions D5, D17). -/
def Obligations.StartBindsProgram : Prop :=
  ∀ (s : State) (bytes : List Byte), s.fault = .none →
    (s.pc < s.progWords → serve (.start bytes) s = .refused .startWhileRunning) ∧
    (s.pc = s.progWords → bytes.length % 2 = 1 →
      ∃ t, serve (.start bytes) s = .next (t, .nothing) ∧
        t = { s with fault := .malformedProgram bytes.length } ∧ t.status = .halted) ∧
    (s.pc = s.progWords → bytes.length % 2 = 0 →
      ∃ t, serve (.start bytes) s = .next (t, .nothing) ∧ t = { s with prog := bytes, pc := 0 } ∧
        (t.status = .running ↔ bytes ≠ []))

/-- `Snapshot` of a range inside the memory: one pair a cell, in ascending order, and no change of
state (the spec's decisions D11, D12). -/
def Obligations.SnapshotReportsCells : Prop :=
  ∀ (s : State) (first last : Int), s.fault = .none → 0 ≤ first → first ≤ last →
    last < s.config.memSize →
    ∃ ps, serve (.snapshot first last) s = .next (s, .pairs ps) ∧
      (ps.length : Int) = last - first + 1 ∧
      ∀ k < ps.length, ps[k]? = some (first + k, sext12 (s.mem.read (first + k).toNat))

/-- `Snapshot` of a range that leaves the memory answers an error with no change of state, and a
reversed range is refused (the spec's decision D11). -/
def Obligations.SnapshotErrors : Prop :=
  ∀ (s : State) (first last : Int), s.fault = .none →
    (first > last → serve (.snapshot first last) s = .refused .snapshotReversed) ∧
    (first ≤ last → first < 0 ∨ last ≥ s.config.memSize →
      serve (.snapshot first last) s = .next (s, .snapErr first last))

/-! ### Runs -/

/-- Control is straight-line: after `k` steps without a fault `pc` is `k` more, and the program and the
memory size are unchanged. -/
def Obligations.ControlIsStraightLine : Prop :=
  ∀ (k : Nat) (s t : State), core.run k s = .next t →
    KeepsProgram s t ∧ (t.fault = .none → t.pc = s.pc + k) ∧
    (t.fault ≠ .none → s.fault = .none → t.pc + 1 = s.pc + k)

/-- Every run ends: after at most `L` steps no step is enabled, and the run has ended normally or by a
fault. -/
def Obligations.EveryRunEnds : Prop :=
  ∀ s : State, s.pc ≤ s.progWords →
    (EndedNormally (runToEnd s) ∨ EndedByFault (runToEnd s)) ∧
    (∀ t, step (runToEnd s) ≠ .next t) ∧ KeepsProgram s (runToEnd s)

/-- A cell keeps its pattern along a run in which no word stores to it. -/
def Obligations.CellKeepsLatestStore : Prop :=
  ∀ (k : Nat) (a : Nat) (s t : State), core.run k s = .next t → NoStoreTo s.prog a s.pc k →
    t.mem.read a = s.mem.read a

/-- A load sees the latest store before it: what `STORE_MEM a` wrote reaches a later `LOAD_MEM a` over any
number of words in between that do not store to `a`. -/
def Obligations.LoadSeesLatestStore : Prop :=
  ∀ (k : Nat) (a : Int) (s t u : State) (rest rest' : List Byte), s.mem.wf → s.fault = .none →
    s.inBounds a → decode (s.prog.drop (2 * s.pc)) = .ok (.storeMem a, rest) →
    NoStoreTo s.prog a (s.pc + 1) k → core.run (k + 1) s = .next t → t.fault = .none →
    decode (t.prog.drop (2 * t.pc)) = .ok (.loadMem a, rest') → step t = .next u →
    u.accValue = s.accValue

/-- `Interpret` gives, for a range that is not reversed, the fault of the run or the snapshot of its end;
an odd stream is `MalformedProgram` whatever its words are. -/
def Obligations.InterpretReportsRun : Prop :=
  ∀ (c : Config) (bytes : List Byte) (first last : Int),
    (bytes.length % 2 = 1 →
      interpret c bytes first last = .next (.error (.malformedProgram bytes.length))) ∧
    (bytes.length % 2 = 0 → first ≤ last →
      ∃ t, t = runToEnd { State.resetWith c with prog := bytes } ∧
        ((t.fault ≠ .none ∧ interpret c bytes first last = .next (.error t.fault)) ∨
        (EndedNormally t ∧ ∃ reply, serve (.snapshot first last) t = .next (t, reply) ∧
          interpret c bytes first last = .next (.snapshot reply))))

/-! ### The assembler -/

/-- Each line of an assembled source is one word of the stream, in order, and decodes to the line's
instruction. -/
def Obligations.AssembledLinesDecode : Prop :=
  ∀ (lines : List (List Char)) (bytes : List Byte), assemble lines = .ok bytes →
    bytes.length = 2 * lines.length ∧
    ∀ (k : Nat) (line : List Char), lines[k]? = some line →
      ∃ i rest, assembleLine line = .ok i ∧ decode (bytes.drop (2 * k)) = .ok (i, rest)

/-- An assembled source starts on a machine after reset and its run raises no `UnknownOpcode` and no
`MalformedProgram`. -/
def Obligations.AssembledSourceHasKnownOpcodes : Prop :=
  ∀ (c : Config) (lines : List (List Char)) (bytes : List Byte), assemble lines = .ok bytes →
    ∃ s, serve (.start bytes) (State.resetWith c) = .next (s, .nothing) ∧ s.prog = bytes ∧
      ((runToEnd s).fault = .none ∨ ∃ idx addr, (runToEnd s).fault = .outOfBounds idx addr)
end

