-- ==== Sys2Proof/Laws/Assembler.lean ====
section
/-!
SUPPORT. What an accepted line of source is: one of the four instructions with an operand in range
(spec 30_encoding.md R96, R97, R100), and an accepted source taken apart line by line (R98).
-/

namespace Sys2Proof.Machine

theorem operandOf_inRange {token : List Char} {z : Int} (h : operandOf token = .ok z) :
    InOperandRange z := by
  unfold operandOf at h
  split at h
  · cases h
  · split at h
    · cases h; assumption
    · cases h

/-- The one-operand forms: the operand token gives an integer in range. -/
theorem map_operandOf_ok {m : Mnemonic} {token : List Char} {i : Instr}
    (h : (operandOf token).map m.instr = .ok i) : ∃ z, InOperandRange z ∧ i = m.instr z := by
  cases hz : operandOf token with
  | error e => rw [hz] at h; cases h
  | ok z => rw [hz] at h; cases h; exact ⟨z, operandOf_inRange hz, rfl⟩

theorem instr_wf_legal {m : Mnemonic} {z : Int} (h : InOperandRange z) :
    (m.instr z).wf ∧ legalOpcode (opcodeNumber (m.instr z)) = true := by
  cases m with
  | loadConst => exact ⟨h, rfl⟩
  | loadMem => exact ⟨h, rfl⟩
  | storeMem => exact ⟨h, rfl⟩
  | sgn => exact ⟨show InOperandRange 0 by decide, rfl⟩

theorem assembleArgs_ok {m : Mnemonic} {args : List (List Char)} {i : Instr}
    (h : assembleArgs m args = .ok i) : i.wf ∧ legalOpcode (opcodeNumber i) = true := by
  unfold assembleArgs at h
  split at h
  · cases h; exact ⟨by decide, rfl⟩
  · cases h
  · cases h
  · obtain ⟨z, hz, rfl⟩ := map_operandOf_ok h
    exact instr_wf_legal hz
  · cases h

/-- An accepted line is a well-formed instruction with a legal opcode. -/
theorem assembleLine_ok {line : List Char} {i : Instr} (h : assembleLine line = .ok i) :
    i.wf ∧ legalOpcode (opcodeNumber i) = true := by
  unfold assembleLine at h
  split at h
  · cases h
  · split at h
    · cases h
    · exact assembleArgs_ok h

/-- An accepted source begins with the word of its first line. -/
theorem assemble_cons_ok {line : List Char} {rest : List (List Char)} {bytes : List Byte}
    (h : assemble (line :: rest) = .ok bytes) :
    ∃ i more, assembleLine line = .ok i ∧ assemble rest = .ok more ∧ bytes = encode i ++ more := by
  simp only [assemble] at h
  split at h
  · cases h
  · rename_i i hi
    split at h
    · cases h
    · rename_i more hm
      cases h
      exact ⟨i, more, hi, hm, rfl⟩

end Sys2Proof.Machine
end

