-- ==== Sys2Proof/Laws/Converter.lean ====
section
/-!
SUPPORT. The converter's laws in the form proofs use them: the formula as linear arithmetic, the
range, the two round trips (spec 40_sign_conversion.md).
-/

namespace Sys2Proof.Machine

theorem sext12_eq (u : Pattern) :
    sext12 u = if u.toNat ≤ 2047 then (u.toNat : Int) else (u.toNat : Int) - 4096 := by
  unfold sext12 signExtend
  split <;> split <;> omega

theorem sext12_inRange (u : Pattern) : InOperandRange (sext12 u) := by
  have := u.isLt
  rw [sext12_eq]
  constructor <;> split <;> omega

theorem tou12_toNat (s : Int) : ((tou12 s).toNat : Int) = s % 4096 := by
  have h0 : 0 ≤ s % 4096 := Int.emod_nonneg s (by decide)
  have h1 : s % 4096 < 4096 := Int.emod_lt_of_pos s (by decide)
  rw [tou12, BitVec.toNat_ofNat]
  omega

/-- `tou_12` keeps a value it is given in range, read back through `sext_12`. -/
theorem sext12_of_tou12 {s : Int} (h : InOperandRange s) : sext12 (tou12 s) = s := by
  have := tou12_toNat s
  obtain ⟨h1, h2⟩ := h
  rw [sext12_eq]
  split <;> omega

/-- Reading a pattern as a signed value and putting it back moves no bit. -/
theorem tou12_of_sext12 (u : Pattern) : tou12 (sext12 u) = u := by
  have h := tou12_toNat (sext12 u)
  have hu := u.isLt
  apply BitVec.eq_of_toNat_eq
  rw [sext12_eq] at h ⊢
  split at h <;> rename_i hle <;> simp only [hle, if_true, if_false] <;> omega

theorem sgn_inRange (s : Int) : InOperandRange (sgn s) := by
  unfold sgn
  constructor <;> split <;> (try split) <;> omega

end Sys2Proof.Machine
end

