-- ==== Sys2Proof/Laws/Decode.lean ====
section
/-!
SUPPORT. The decoder and the packing function: what each field of a decoded word is, that an
instruction is its opcode and its operand, that the packed bytes carry both, and when a byte list
decodes (spec 30_encoding.md).
-/

namespace Sys2Proof
open Sys2Proof.Machine

theorem opcodeNumber_instrOf (op : Opcode) (z : Int) : opcodeNumber (instrOf op z) = op := by
  obtain ⟨k⟩ := op
  fin_cases k <;> rfl

theorem operand_instrOf (op : Opcode) (z : Int) : (instrOf op z).operand = z := by
  unfold instrOf
  split <;> rfl

@[simp] theorem opcodeNumber_decodeWord (byte1 byte2 : Byte) :
    opcodeNumber (decodeWord byte1 byte2) = opcodeOf byte1 := opcodeNumber_instrOf _ _

@[simp] theorem operand_decodeWord (byte1 byte2 : Byte) :
    (decodeWord byte1 byte2).operand = sext12 (rawOperandOf byte1 byte2) := operand_instrOf _ _

/-- Every word decodes to an instruction whose operand is in range. -/
theorem decodeWord_wf (byte1 byte2 : Byte) : (decodeWord byte1 byte2).wf := by
  rw [Instr.wf, operand_decodeWord]
  exact sext12_inRange _

theorem instrOf_of_fields (i : Instr) : instrOf (opcodeNumber i) i.operand = i := by
  cases i <;> rfl

/-- An instruction is the pair of its opcode and its operand (00_scope.md R16). -/
theorem instr_ext {i j : Instr} (ho : opcodeNumber i = opcodeNumber j)
    (hz : i.operand = j.operand) : i = j := by
  rw [← instrOf_of_fields i, ← instrOf_of_fields j, ho, hz]

/-- The opcode field of a packed word is the opcode. -/
theorem opcodeOf_packByte1 (op : Opcode) (u : Pattern) : opcodeOf (packByte1 op u) = op := by
  apply BitVec.eq_of_getLsbD_eq
  intro k hk
  simp only [opcodeOf, packByte1, BitVec.getLsbD_append, BitVec.getLsbD_extractLsb']
  simp [hk]

/-- The operand field of a packed word is the operand's pattern. -/
theorem rawOperandOf_pack (op : Opcode) (u : Pattern) :
    rawOperandOf (packByte1 op u) (packByte2 u) = u := by
  apply BitVec.eq_of_getLsbD_eq
  intro k hk
  simp only [rawOperandOf, packByte1, packByte2, BitVec.getLsbD_append, BitVec.getLsbD_extractLsb']
  by_cases h5 : k < 5
  · simp [h5, show ¬ (3 + k < 3) by omega]
  · simp [h5, show k - 5 < 7 by omega, show 5 + (k - 5) = k by omega]

/-- A byte list decodes exactly when it has a whole word at its front. -/
theorem decode_ok_iff {bytes : List Byte} {i : Instr} {rest : List Byte} :
    decode bytes = .ok (i, rest) ↔
      ∃ byte1 byte2, bytes = byte1 :: byte2 :: rest ∧ i = decodeWord byte1 byte2 := by
  match bytes with
  | [] => simp [decode]
  | [_] => simp [decode]
  | b1 :: b2 :: r =>
    simp only [decode, Except.ok.injEq, Prod.mk.injEq, List.cons.injEq]
    constructor
    · rintro ⟨rfl, rfl⟩; exact ⟨b1, b2, ⟨rfl, rfl, rfl⟩, rfl⟩
    · rintro ⟨_, _, ⟨rfl, rfl, rfl⟩, rfl⟩; exact ⟨rfl, rfl⟩

end Sys2Proof
end

