-- ==== Sys2Proof/Laws/Memory.lean ====
section
/-!
SUPPORT. The data memory: a read after a write, and the canonical form that every write keeps (spec
20_memory.md R56, R60, R65).
-/

namespace Sys2Proof.Machine.Memory

theorem nil_wf : Memory.wf [] := ⟨List.Pairwise.nil, by simp⟩

theorem wf_tail {k : Nat} {w : Pattern} {rest : Memory} (h : Memory.wf ((k, w) :: rest)) :
    Memory.wf rest :=
  ⟨(List.pairwise_cons.1 h.1).2, fun e he => h.2 e (List.mem_cons_of_mem _ he)⟩

/-- An address below every listed one reads as an unlisted address. -/
theorem read_below {m : Memory} {a : Nat} (h : ∀ e ∈ m, a < e.1) : m.read a = Memory.unlisted := by
  induction m with
  | nil => rfl
  | cons e rest ih =>
    obtain ⟨k, v⟩ := e
    have hk : a < k := h (k, v) (by simp)
    rw [Memory.read, if_neg (by omega)]
    exact ih (fun e he => h e (List.mem_cons_of_mem _ he))

/-- An address that no entry has reads as an unlisted address. -/
theorem read_absent {m : Memory} {a : Nat} (h : ∀ e ∈ m, e.1 ≠ a) : m.read a = Memory.unlisted := by
  induction m with
  | nil => rfl
  | cons e rest ih =>
    rw [Memory.read, if_neg (h e (by simp))]
    exact ih (fun e he => h e (List.mem_cons_of_mem _ he))

theorem mem_cons_iff {a : Nat} {v : Pattern} {rest : Memory} {e : Nat × Pattern} :
    e ∈ Memory.cons a v rest ↔ (e = (a, v) ∧ v ≠ Memory.unlisted) ∨ e ∈ rest := by
  unfold Memory.cons
  split <;> simp_all

/-- What a write lists: the new pair, or a pair that was listed before. -/
theorem mem_write {m : Memory} {a : Nat} {v : Pattern} {e : Nat × Pattern}
    (h : e ∈ m.write a v) : (e = (a, v) ∧ v ≠ Memory.unlisted) ∨ e ∈ m := by
  induction m with
  | nil => exact mem_cons_iff.1 h
  | cons p rest ih =>
    obtain ⟨k, w⟩ := p
    rw [Memory.write] at h
    split at h
    · exact mem_cons_iff.1 h
    · split at h
      · exact (mem_cons_iff.1 h).imp_right (List.mem_cons_of_mem _)
      · rcases List.mem_cons.1 h with rfl | h
        · exact .inr (by simp)
        · exact (ih h).imp_right (List.mem_cons_of_mem _)

theorem cons_wf {a : Nat} {v : Pattern} {rest : Memory} (hr : Memory.wf rest)
    (ha : ∀ e ∈ rest, a < e.1) : Memory.wf (Memory.cons a v rest) := by
  unfold Memory.cons
  split
  · exact hr
  · rename_i hv
    refine ⟨List.pairwise_cons.2 ⟨ha, hr.1⟩, fun e he => ?_⟩
    rcases List.mem_cons.1 he with rfl | he
    · exact hv
    · exact hr.2 e he

/-- Every write keeps the canonical form. -/
theorem write_wf {m : Memory} (h : m.wf) (a : Nat) (v : Pattern) : (m.write a v).wf := by
  induction m with
  | nil => exact cons_wf nil_wf (by simp)
  | cons p rest ih =>
    obtain ⟨k, w⟩ := p
    have hk : ∀ e ∈ rest, k < e.1 := (List.pairwise_cons.1 h.1).1
    rw [Memory.write]
    split
    · rename_i hlt
      refine cons_wf h fun e he => ?_
      rcases List.mem_cons.1 he with rfl | he
      · exact hlt
      · exact lt_trans hlt (hk e he)
    · split
      · rename_i heq
        exact cons_wf (wf_tail h) (heq ▸ hk)
      · refine ⟨List.pairwise_cons.2 ⟨fun e he => ?_, (ih (wf_tail h)).1⟩, fun e he => ?_⟩
        · rcases mem_write he with ⟨rfl, -⟩ | he
          · show k < a; omega
          · exact hk e he
        · rcases List.mem_cons.1 he with rfl | he
          · exact h.2 _ (by simp)
          · exact (ih (wf_tail h)).2 e he

theorem read_cons_self {m : Memory} {a : Nat} (v : Pattern) (h : ∀ e ∈ m, a < e.1) :
    (Memory.cons a v m).read a = v := by
  unfold Memory.cons
  split
  · rename_i hv
    rw [read_below h, hv]
  · simp [Memory.read]

theorem read_cons_other {m : Memory} {a b : Nat} (v : Pattern) (h : b ≠ a) :
    (Memory.cons a v m).read b = m.read b := by
  unfold Memory.cons
  split
  · rfl
  · rw [Memory.read, if_neg (Ne.symm h)]

/-- A read of the cell just written gives the pattern written; `m` is in canonical form. -/
theorem read_write_self {m : Memory} (h : m.wf) (a : Nat) (v : Pattern) :
    (m.write a v).read a = v := by
  induction m with
  | nil => exact read_cons_self v (by simp)
  | cons p rest ih =>
    obtain ⟨k, w⟩ := p
    have hk : ∀ e ∈ rest, k < e.1 := (List.pairwise_cons.1 h.1).1
    rw [Memory.write]
    split
    · rename_i hlt
      refine read_cons_self v fun e he => ?_
      rcases List.mem_cons.1 he with rfl | he
      · exact hlt
      · exact lt_trans hlt (hk e he)
    · split
      · rename_i heq
        exact read_cons_self v (heq ▸ hk)
      · rw [Memory.read, if_neg (by omega)]
        exact ih (wf_tail h)

/-- A write leaves every other cell as it was. -/
theorem read_write_other (m : Memory) {a b : Nat} (v : Pattern) (h : b ≠ a) :
    (m.write a v).read b = m.read b := by
  induction m with
  | nil => exact read_cons_other v h
  | cons p rest ih =>
    obtain ⟨k, w⟩ := p
    rw [Memory.write]
    split
    · exact read_cons_other v h
    · split
      · rename_i heq
        rw [read_cons_other v h, Memory.read, if_neg (by omega)]
      · simp only [Memory.read, ih]

end Sys2Proof.Machine.Memory

namespace Sys2Proof.Machine

/-- A write of the memory controller keeps the canonical form. -/
theorem memWrite_wf {s t : State} {a : Int} {v : Pattern} (h : s.mem.wf)
    (hw : memWrite s a v = .ok t) : t.mem.wf := by
  unfold memWrite at hw
  split at hw
  · cases hw
    exact Memory.write_wf h _ _
  · cases hw

/-- The memory after reset is in canonical form. -/
theorem reset_mem_wf : State.reset.mem.wf := Memory.nil_wf

end Sys2Proof.Machine
end

