-- ==== Sys2Proof/Laws/State.lean ====
section
/-!
SUPPORT. One lemma a field for each named update of the state, so that no later proof unfolds one.
-/

namespace Sys2Proof.Machine.State

section setAcc
variable (s : State) (v : Int)
@[simp] theorem setAcc_config : (s.setAcc v).config = s.config := rfl
@[simp] theorem setAcc_acc : (s.setAcc v).acc = tou12 v := rfl
@[simp] theorem setAcc_mem : (s.setAcc v).mem = s.mem := rfl
@[simp] theorem setAcc_pc : (s.setAcc v).pc = s.pc := rfl
@[simp] theorem setAcc_fault : (s.setAcc v).fault = s.fault := rfl
@[simp] theorem setAcc_prog : (s.setAcc v).prog = s.prog := rfl
end setAcc

section storeCell
variable (s : State) (a : Nat) (v : Pattern)
@[simp] theorem storeCell_config : (s.storeCell a v).config = s.config := rfl
@[simp] theorem storeCell_acc : (s.storeCell a v).acc = s.acc := rfl
@[simp] theorem storeCell_mem : (s.storeCell a v).mem = s.mem.write a v := rfl
@[simp] theorem storeCell_pc : (s.storeCell a v).pc = s.pc := rfl
@[simp] theorem storeCell_fault : (s.storeCell a v).fault = s.fault := rfl
@[simp] theorem storeCell_prog : (s.storeCell a v).prog = s.prog := rfl
end storeCell

section advance
variable (s : State)
@[simp] theorem advance_config : s.advance.config = s.config := rfl
@[simp] theorem advance_acc : s.advance.acc = s.acc := rfl
@[simp] theorem advance_mem : s.advance.mem = s.mem := rfl
@[simp] theorem advance_pc : s.advance.pc = s.pc + 1 := rfl
@[simp] theorem advance_fault : s.advance.fault = s.fault := rfl
@[simp] theorem advance_prog : s.advance.prog = s.prog := rfl
end advance

section latch
variable (s : State) (k : FaultLatch)
@[simp] theorem latch_config : (s.latch k).config = s.config := rfl
@[simp] theorem latch_acc : (s.latch k).acc = s.acc := rfl
@[simp] theorem latch_mem : (s.latch k).mem = s.mem := rfl
@[simp] theorem latch_pc : (s.latch k).pc = s.pc := rfl
@[simp] theorem latch_fault : (s.latch k).fault = k := rfl
@[simp] theorem latch_prog : (s.latch k).prog = s.prog := rfl
end latch

section bindProgram
variable (s : State) (bytes : List Byte)
@[simp] theorem bindProgram_config : (s.bindProgram bytes).config = s.config := rfl
@[simp] theorem bindProgram_acc : (s.bindProgram bytes).acc = s.acc := rfl
@[simp] theorem bindProgram_mem : (s.bindProgram bytes).mem = s.mem := rfl
@[simp] theorem bindProgram_pc : (s.bindProgram bytes).pc = 0 := rfl
@[simp] theorem bindProgram_fault : (s.bindProgram bytes).fault = s.fault := rfl
@[simp] theorem bindProgram_prog : (s.bindProgram bytes).prog = bytes := rfl
end bindProgram

section withFetchWord
variable (s : State) (nbits w : Nat)
@[simp] theorem withFetchWord_config : (s.withFetchWord nbits w).config = s.config := rfl
@[simp] theorem withFetchWord_acc : (s.withFetchWord nbits w).acc = s.acc := rfl
@[simp] theorem withFetchWord_mem : (s.withFetchWord nbits w).mem = s.mem := rfl
@[simp] theorem withFetchWord_pc : (s.withFetchWord nbits w).pc = s.pc := rfl
@[simp] theorem withFetchWord_fault : (s.withFetchWord nbits w).fault = .none := rfl
theorem withFetchWord_prog : (s.withFetchWord nbits w).prog =
    placeBytes s.prog (2 * s.pc) (tableWordBytes nbits w) := rfl
end withFetchWord

section resetWith
variable (c : Config)
@[simp] theorem resetWith_config : (resetWith c).config = c := rfl
@[simp] theorem resetWith_acc : (resetWith c).acc = 0 := rfl
@[simp] theorem resetWith_mem : (resetWith c).mem = [] := rfl
@[simp] theorem resetWith_pc : (resetWith c).pc = 0 := rfl
@[simp] theorem resetWith_fault : (resetWith c).fault = .none := rfl
@[simp] theorem resetWith_prog : (resetWith c).prog = [] := rfl
end resetWith

/-- Writing the value `ACC` has leaves the flip-flops as they are (spec 40_sign_conversion.md R115). -/
theorem accValue_setAcc {s : State} {v : Int} : (s.setAcc v).accValue = sext12 (tou12 v) := rfl

end Sys2Proof.Machine.State
end

