-- ==== Sys2Proof/Laws/Exec.lean ====
section
/-!
SUPPORT. Everything an instruction and a step can do, said once: later proofs cite these and unfold
neither the meanings nor the step.
-/

namespace Sys2Proof.Machine

/-- Everything `MemRead` can do (R55). -/
theorem memRead_cases (s : State) (a : Int) :
    (s.inBounds a ∧ memRead s a = .ok (s.mem.read a.toNat)) ∨
    (¬ s.inBounds a ∧ memRead s a = .error (.outOfBounds s.pc a)) := by
  by_cases h : s.inBounds a
  · exact .inl ⟨h, if_pos h⟩
  · exact .inr ⟨h, if_neg h⟩

/-- Everything `MemWrite` can do (R56). -/
theorem memWrite_cases (s : State) (a : Int) (v : Pattern) :
    (s.inBounds a ∧ memWrite s a v = .ok (s.storeCell a.toNat v)) ∨
    (¬ s.inBounds a ∧ memWrite s a v = .error (.outOfBounds s.pc a)) := by
  by_cases h : s.inBounds a
  · exact .inl ⟨h, if_pos h⟩
  · exact .inr ⟨h, if_neg h⟩

/-- The two ways an instruction changes the state: it completes with one write, or it raises. -/
inductive Effect (i : Instr) (s : State) : State → Prop where
  | loadMem (addr : Int) : i = .loadMem addr → s.inBounds addr →
      Effect i s (s.setAcc (sext12 (s.mem.read addr.toNat))).advance
  | loadConst (c : Int) : i = .loadConst c → Effect i s (s.setAcc c).advance
  | storeMem (addr : Int) : i = .storeMem addr → s.inBounds addr →
      Effect i s (s.storeCell addr.toNat (tou12 s.accValue)).advance
  | sgn (z : Int) : i = .sgn z → Effect i s (s.setAcc (sgn s.accValue)).advance
  | outOfBounds (addr : Int) : i = .loadMem addr ∨ i = .storeMem addr → ¬ s.inBounds addr →
      Effect i s (s.latch (.outOfBounds s.pc addr))
  | unknownOpcode : legalOpcode (opcodeNumber i) = false →
      Effect i s (s.latch (.unknownOpcode s.pc (opcodeNumber i)))

/-- Every instruction answers a next state, and that state is one of the effects. -/
theorem exec_effect (i : Instr) (s : State) : ∃ t, exec i s = .next t ∧ Effect i s t := by
  cases i with
  | loadMem addr =>
    rcases memRead_cases s addr with ⟨hb, hr⟩ | ⟨hb, hr⟩
    · exact ⟨_, by simp only [exec, execLoadMem, hr, complete], .loadMem addr rfl hb⟩
    · exact ⟨_, by simp only [exec, execLoadMem, hr, raise], .outOfBounds addr (.inl rfl) hb⟩
  | loadConst c => exact ⟨_, rfl, .loadConst c rfl⟩
  | storeMem addr =>
    rcases memWrite_cases s addr (tou12 s.accValue) with ⟨hb, hw⟩ | ⟨hb, hw⟩
    · exact ⟨_, by simp only [exec, execStoreMem, hw, complete], .storeMem addr rfl hb⟩
    · exact ⟨_, by simp only [exec, execStoreMem, hw, raise], .outOfBounds addr (.inr rfl) hb⟩
  | sgn z => exact ⟨_, rfl, .sgn z rfl⟩
  | illegal0 z => exact ⟨_, rfl, .unknownOpcode rfl⟩
  | illegal5 z => exact ⟨_, rfl, .unknownOpcode rfl⟩
  | illegal6 z => exact ⟨_, rfl, .unknownOpcode rfl⟩
  | illegal7 z => exact ⟨_, rfl, .unknownOpcode rfl⟩

theorem exec_cases {i : Instr} {s t : State} (h : exec i s = .next t) : Effect i s t := by
  obtain ⟨u, hu, he⟩ := exec_effect i s
  rw [hu] at h
  cases h
  exact he

/-- A whole word is left exactly when `pc < L`, and `fetch` decodes its two bytes. -/
theorem fetch_of_lt {s : State} (h : s.pc < s.progWords) :
    ∃ byte1 byte2 rest, s.prog[2 * s.pc]? = some byte1 ∧ s.prog[2 * s.pc + 1]? = some byte2 ∧
      fetch s = .ok (decodeWord byte1 byte2, rest) := by
  unfold State.progWords at h
  have h1 : 2 * s.pc < s.prog.length := by omega
  have h2 : 2 * s.pc + 1 < s.prog.length := by omega
  refine ⟨s.prog[2 * s.pc], s.prog[2 * s.pc + 1], s.prog.drop (2 * s.pc + 1 + 1),
    List.getElem?_eq_getElem h1, List.getElem?_eq_getElem h2, ?_⟩
  rw [fetch, List.drop_eq_getElem_cons h1, List.drop_eq_getElem_cons h2, decode]

theorem lt_of_fetch {s : State} {p : Instr × List Byte} (h : fetch s = .ok p) :
    s.pc < s.progWords := by
  obtain ⟨i, rest⟩ := p
  obtain ⟨b1, b2, hb, -⟩ := decode_ok_iff.1 h
  have hl := congrArg List.length hb
  simp only [List.length_drop, List.length_cons] at hl
  unfold State.progWords
  omega

/-- A step gives a next state exactly by executing a fetched word with no fault latched. -/
theorem step_next_iff {s t : State} :
    step s = .next t ↔ s.fault = .none ∧ ∃ i rest, fetch s = .ok (i, rest) ∧ exec i s = .next t := by
  unfold step
  split
  · rename_i hf
    split
    · rename_i i rest he
      simp [hf, he]
    · rename_i e he
      simp [he]
  · rename_i hf
    simp [hf]

/-- Where a step is enabled it gives a next state (R27). -/
theorem step_of_enabled {s : State} (hf : s.fault = .none) (hp : s.pc < s.progWords) :
    ∃ byte1 byte2, s.prog[2 * s.pc]? = some byte1 ∧ s.prog[2 * s.pc + 1]? = some byte2 ∧
      step s = exec (decodeWord byte1 byte2) s := by
  obtain ⟨b1, b2, rest, h1, h2, hd⟩ := fetch_of_lt hp
  exact ⟨b1, b2, h1, h2, by rw [step, if_pos hf, hd]⟩

/-- Where no whole word is left, the step stops as `done` (R28). -/
theorem step_of_done {s : State} (hf : s.fault = .none) (hp : ¬ s.pc < s.progWords) :
    step s = .fault .done := by
  rw [step, if_pos hf]
  split
  · rename_i i rest he
    exact absurd (lt_of_fetch he) hp
  · rfl

/-- Where a fault is latched, the step stops as `halted` (R160). -/
theorem step_of_halted {s : State} (hf : s.fault ≠ .none) : step s = .fault (.halted s.fault) := by
  rw [step, if_neg hf]

end Sys2Proof.Machine
end

