-- ==== Sys2Proof/Laws/PerInstr.lean ====
section
/-!
SUPPORT. A statement for every instruction as syntax: its packed form is one word of two bytes whose
opcode field is its row's opcode and whose ignored bit is clear (spec 30_encoding.md R80, R81, R88).
-/

namespace Sys2Proof.Laws.PackedWord
open Sys2Proof.Machine

/-- The packed form of `i` is two bytes, carries its opcode number, and has bit 7 of `byte2` clear. -/
def Statement (i : Instr) : Prop :=
  ∃ byte1 byte2, encode i = [byte1, byte2] ∧ opcodeOf byte1 = opcodeNumber i ∧
    byte2.getLsbD 7 = false

theorem packByte2_top_clear (u : Pattern) : (packByte2 u).getLsbD 7 = false := by
  simp only [packByte2, BitVec.getLsbD_append]
  simp

theorem of_fields (i : Instr) : Statement i :=
  ⟨_, _, rfl, opcodeOf_packByte1 _ _, packByte2_top_clear _⟩

theorem loadMem (addr : Int) : Statement (.loadMem addr) := of_fields _
theorem loadConst (c : Int) : Statement (.loadConst c) := of_fields _
theorem storeMem (addr : Int) : Statement (.storeMem addr) := of_fields _
theorem sgn (ignored : Int) : Statement (.sgn ignored) := of_fields _
theorem illegal0 (ignored : Int) : Statement (.illegal0 ignored) := of_fields _
theorem illegal5 (ignored : Int) : Statement (.illegal5 ignored) := of_fields _
theorem illegal6 (ignored : Int) : Statement (.illegal6 ignored) := of_fields _
theorem illegal7 (ignored : Int) : Statement (.illegal7 ignored) := of_fields _

end Sys2Proof.Laws.PackedWord
end

