-- ==== Sys2Proof/Laws/Run.lean ====
section
/-!
SUPPORT. Steps, moves and runs: the step on a word given by its bytes, what a step never changes, one
move taken apart, one step split off a run, and the pairs a snapshot reports.
-/

namespace Sys2Proof.Machine

/-- Where the word at `pc` has these bytes, a whole word is left. -/
theorem lt_of_wordAt {s : State} {byte1 byte2 : Byte} (h : WordAt s byte1 byte2) :
    s.pc < s.progWords := by
  have := (List.getElem?_eq_some_iff.1 h.2).1
  unfold State.progWords
  omega

/-- A step with no fault latched executes the word at `pc` (spec 10_state.md R27). -/
theorem step_of_wordAt {s : State} {byte1 byte2 : Byte} (hf : s.fault = .none)
    (h : WordAt s byte1 byte2) : step s = exec (decodeWord byte1 byte2) s := by
  obtain ⟨c1, c2, h1, h2, h3⟩ := step_of_enabled hf (lt_of_wordAt h)
  have e1 : c1 = byte1 := Option.some.inj (h1.symm.trans h.1)
  have e2 : c2 = byte2 := Option.some.inj (h2.symm.trans h.2)
  rw [h3, e1, e2]

/-- Bytes placed at an offset stand there, whatever the program was. -/
theorem drop_placeBytes (prog word : List Byte) (off : Nat) :
    (placeBytes prog off word).drop off = word ++ prog.drop (off + word.length) := by
  have hl : (prog.take off ++ List.replicate (off - prog.length) (0 : Byte)).length = off := by
    simp only [List.length_append, List.length_take, List.length_replicate]
    omega
  rw [placeBytes, List.append_assoc, List.drop_left' hl]

/-- The word that `withFetchWord` places is the one the next step executes. -/
theorem step_withFetchWord {s : State} {nbits w : Nat} {i : Instr}
    (h : decodeTableWord nbits w = some i) :
    step (s.withFetchWord nbits w) = exec i (s.withFetchWord nbits w) := by
  have hi : decodeWord (BitVec.ofNat 8 (w % 2 ^ nbits)) (BitVec.ofNat 8 (w % 2 ^ nbits / 256)) = i :=
    Option.some.inj h
  rw [step, if_pos (State.withFetchWord_fault s nbits w), fetch, State.withFetchWord_pc,
    State.withFetchWord_prog, drop_placeBytes, ← hi]
  rfl

/-- An instruction writes neither the program nor the memory size. -/
theorem exec_keepsProgram {i : Instr} {s t : State} (h : exec i s = .next t) :
    KeepsProgram s t := by
  cases exec_cases h <;> exact ⟨rfl, rfl⟩

/-- A step writes neither the program nor the memory size. -/
theorem step_keepsProgram {s t : State} (h : step s = .next t) : KeepsProgram s t := by
  obtain ⟨-, _, _, -, he⟩ := step_next_iff.1 h
  exact exec_keepsProgram he

/-- A move is a step or a served request. -/
theorem move_cases {m : Move} {s t : State} (h : move m s = some t) :
    (m = .step ∧ step s = .next t) ∨
      ∃ r reply, m = .host r ∧ serve r s = .next (t, reply) := by
  cases m with
  | step =>
    simp only [move] at h
    split at h <;> simp_all
  | host r =>
    simp only [move] at h
    split at h <;> simp_all

/-- A run of one step more begins with a step. -/
theorem core_run_succ {k : Nat} {s t : State} (h : core.run (k + 1) s = .next t) :
    ∃ u, step s = .next u ∧ core.run k u = .next t := by
  simp only [Host.Core.run] at h
  split at h
  · rename_i u hu
    exact ⟨u, hu, h⟩
  · cases h
  · cases h

theorem snapshotPairs_length (m : Memory) (n : Nat) (first : Int) :
    (snapshotPairs m first n).length = n := by
  induction n generalizing first with
  | zero => rfl
  | succ n ih => simp [snapshotPairs, ih]

/-- The `k`-th pair of a snapshot. -/
theorem snapshotPairs_getElem? (m : Memory) {n k : Nat} (first : Int) (h : k < n) :
    (snapshotPairs m first n)[k]? = some (first + k, sext12 (m.read (first + k).toNat)) := by
  induction n generalizing first k with
  | zero => omega
  | succ n ih =>
    cases k with
    | zero => simp [snapshotPairs]
    | succ k =>
      simp only [snapshotPairs, List.getElem?_cons_succ]
      rw [ih (first + 1) (by omega), show first + 1 + (k : Int) = first + ((k + 1 : Nat) : Int) by omega]

end Sys2Proof.Machine
end

