-- ==== Sys2Proof/Tests/Slice0.lean ====
section
/-!
SUPPORT. Tests on fixed values, taken from the spec's vectors (95_test_vectors.md) and its worked
examples, each about one word or one step; then, for each statement with hypotheses, a witness that
meets them.
-/

namespace Sys2Proof.Tests
open Sys2Proof Sys2Proof.Machine

/-- A machine of 256 cells at word 0 of `bytes`. -/
def running (acc : Pattern) (mem : Memory) (bytes : List Byte) : State :=
  { State.reset with acc := acc, mem := mem, prog := bytes }

/-! ### Well-formedness -/

theorem test_wf_accepts_the_range : (Instr.loadConst 2047).wf ∧ (Instr.storeMem (-2048)).wf := by
  decide
theorem test_wf_refuses_above : ¬ (Instr.loadConst 2048).wf := by decide
theorem test_wf_refuses_below : ¬ (Instr.loadMem (-2049)).wf := by decide

/-! ### Decoding: words written out as `[byte1, byte2]`, opcode in the low three bits -/

/-- E11: `F9 07`. -/
theorem test_decode_loadMem : decode [0b11111001, 0b00000111] = .ok (.loadMem 255, []) := by decide
/-- T8, T9: `B2 7F` and `02 40`. -/
theorem test_decode_loadConst : decode [0b10110010, 0b01111111, 0b00000010, 0b01000000] =
    .ok (.loadConst (-10), [0b00000010, 0b01000000]) ∧
    decode [0b00000010, 0b01000000] = .ok (.loadConst (-2048), []) := by decide
/-- T13, T14, T18: the low five bits from `byte1`, the high seven from `byte2`. -/
theorem test_decode_operand_fields : decode [0xFA, 0x00] = .ok (.loadConst 31, []) ∧
    decode [0x02, 0x01] = .ok (.loadConst 32, []) ∧
    decode [0x52, 0x55] = .ok (.loadConst (-1366), []) := by decide
/-- T19: `03 08`. -/
theorem test_decode_storeMem : decode [0b00000011, 0b00001000] = .ok (.storeMem 256, []) := by decide
/-- T6, T27: `2C 00` and `04 80`. -/
theorem test_decode_sgn : decode [0b00101100, 0b00000000] = .ok (.sgn 5, []) ∧
    decode [0b00000100, 0b10000000] = .ok (.sgn 0, []) := by decide
/-- T21 to T25. -/
theorem test_decode_illegal : decode [0x00, 0x00] = .ok (.illegal0 0, []) ∧
    decode [0x05, 0x00] = .ok (.illegal5 0, []) ∧ decode [0x06, 0x00] = .ok (.illegal6 0, []) ∧
    decode [0xFF, 0xFF] = .ok (.illegal7 (-1), []) := by decide
/-- R54, R80: half a word and no word are refused by name. -/
theorem test_decode_rejects : decode [0x0A] = .error .halfWord ∧ decode [] = .error .exhausted := by
  decide
/-- E1, E8, E19, E20; conflict C1: the first byte of `load_const 179` is `9A`. -/
theorem test_encode : encode (.loadConst 179) = [0x9A, 0x05] ∧
    encode (.loadConst (-300)) = [0xA2, 0x76] ∧ encode (.storeMem (-1)) = [0xFB, 0x7F] ∧
    encode (.sgn 0) = [0x04, 0x00] := by decide
/-- The table's numbering: `w16 = byte1 + 256 * byte2`, zeros above a short row. -/
theorem test_decodeTableWord : decodeTableWord 16 0x859A = some (.loadConst 179) ∧
    decodeTableWord 8 0xF1 = some (.loadMem 30) ∧ decodeTableWord 3 0x5 = some (.illegal5 0) := by
  decide

/-! ### The converter (V3 to V7, V10 to V16) -/

theorem test_sext12 : sext12 2047 = 2047 ∧ sext12 2048 = -2048 ∧ sext12 4095 = -1 ∧
    sext12 0xFF6 = -10 := by decide
theorem test_tou12 : tou12 (-1) = 4095 ∧ tou12 (-2048) = 2048 ∧ tou12 (-300) = 0xED4 ∧
    tou12 5000 = 904 ∧ tou12 (-5000) = 3192 := by decide

/-! ### One step -/

/-- B2: `F1 00` with `MEM[30] = 4086`. -/
theorem test_loadMem_extends_sign :
    (move .step (running 0 [(30, 4086)] [0xF1, 0x00])).map (fun t => (t.accValue, t.pc, t.fault)) =
      some (-10, 1, .none) := by decide
/-- B5: `01 08`, address 256 of 256 cells. -/
theorem test_loadMem_past_the_end :
    (move .step (running 7 [] [0x01, 0x08])).map (fun t => (t.accValue, t.pc, t.fault)) =
      some (7, 0, .outOfBounds 0 256) := by decide
/-- A4: `02 40`. -/
theorem test_loadConst_most_negative :
    (move .step (running 0xFFF [] [0x02, 0x40])).map (fun t => (t.accValue, t.mem, t.pc)) =
      some (-2048, [], 1) := by decide
/-- A6: `9A 85`, the ignored bit set. -/
theorem test_loadConst_ignored_bit :
    (move .step (running 0 [] [0x9A, 0x85])).map State.accValue = some 179 := by decide
/-- M4: `FB 07`, the last cell. -/
theorem test_storeMem_last_cell :
    (move .step (running 0x800 [(1, 179)] [0xFB, 0x07])).map (fun t => (t.mem, t.accValue, t.pc)) =
      some ([(1, 179), (255, 2048)], -2048, 1) := by decide
/-- M6, M8: a stored 0 leaves the canonical form; address -1 faults. -/
theorem test_storeMem_zero_and_negative :
    (move .step (running 0 [(1, 179)] [0x0B, 0x00])).map State.mem = some [] ∧
    (move .step (running 5 [] [0xFB, 0x7F])).map (fun t => (t.mem, t.fault, t.pc)) =
      some ([], .outOfBounds 0 (-1), 0) := by decide
/-- G4, G5: `04 00`. -/
theorem test_sgn_corners : (move .step (running 0x800 [] [0x04, 0x00])).map State.accValue = some (-1) ∧
    (move .step (running 0 [] [0x04, 0x00])).map State.accValue = some 0 := by decide
/-- G9: `FC FF`, operand field and ignored bit set. -/
theorem test_sgn_ignores_operand :
    (move .step (running 179 [] [0xFC, 0xFF])).map (fun t => (t.accValue, t.acc)) =
      some (1, 0x001) := by decide
/-- T21, T22, T23, T25 reached as words. -/
theorem test_illegal_words :
    (move .step (running 1 [] [0x00, 0x00])).map State.fault = some (.unknownOpcode 0 0) ∧
    (move .step (running 1 [] [0xFD, 0x7F])).map State.fault = some (.unknownOpcode 0 5) ∧
    (move .step (running 1 [] [0x06, 0x00])).map State.fault = some (.unknownOpcode 0 6) ∧
    (move .step (running 1 [] [0xFF, 0xFF])).map (fun t => (t.acc, t.pc, t.fault)) =
      some (1, 0, .unknownOpcode 0 7) := by decide
/-- H6: no step on a halted machine; R28: none on a finished one. -/
theorem test_no_step_when_halted_or_done :
    step ((running 1 [] [0x0A, 0x00]).latch (.unknownOpcode 0 0)) =
      .fault (.halted (.unknownOpcode 0 0)) ∧
    step State.reset = .fault .done := ⟨rfl, rfl⟩
/-- The first instruction after reset, placed by the table's numbering. -/
theorem test_withFetchWord : (move .step (State.reset.withFetchWord 16 0x059A)).map State.accValue =
    some 179 := by decide

/-! ### The host (H2, H3, H8, H9, H10, R180) -/

theorem test_start_odd_stream : hostStart [0x00, 0x00, 0x3A] State.reset =
    .next (State.reset.latch (.malformedProgram 3), .nothing) := rfl
theorem test_snapshot_values : hostSnapshot 30 31 (running 0 [(30, 4086), (31, 4095)] []) =
    .next (running 0 [(30, 4086), (31, 4095)] [], .pairs [(30, -10), (31, -1)]) := rfl
theorem test_snapshot_errors : hostSnapshot 0 256 State.reset = .next (State.reset, .snapErr 0 256) ∧
    hostSnapshot (-1) 3 State.reset = .next (State.reset, .snapErr (-1) 3) ∧
    hostSnapshot 5 4 State.reset = .refused .snapshotReversed := ⟨rfl, rfl, rfl⟩
/-- P5: the two-word program `0A 00 FB 7F` ends by a fault, and nothing else is reported. -/
theorem test_interpret_fault : interpret Config.standard [0x0A, 0x00, 0xFB, 0x7F] 0 0 =
    .next (.error (.outOfBounds 1 (-1))) := rfl

/-! ### The assembler (E2, S4, R99, R100) -/

theorem test_assemble_line : assembleLine ['L', 'O', 'A', 'D', '_', 'c', 'o', 'n', 's', 't', ' ', '-', '1', '0'] =
    .ok (.loadConst (-10)) := by decide
theorem test_assemble_errors : assembleLine ['n', 'o', 'p', ' ', '1'] = .error .unknownOpcode ∧
    assembleLine ['l', 'o', 'a', 'd', '_', 'm', 'e', 'm'] = .error .malformedOperand ∧
    assembleLine ['l', 'o', 'a', 'd', '_', 'm', 'e', 'm', ' ', '2', '0', '4', '8'] =
      .error .operandOutOfRange ∧
    assembleLine [' '] = .error .undescribed := by decide

/-! ### Witnesses: the hypotheses of the statements are met -/

/-- Both ends of each bit range. -/
theorem test_witness_DecoderExtractsFields :
    (decodeFields 0xF9 0x7F).rawOperand = 0xFFF ∧ (decodeFields 0x09 0x00).rawOperand = 0x001 ∧
    (decodeFields 0x81 0x00).rawOperand = 0x010 ∧ (decodeFields 0x01 0x01).rawOperand = 0x020 ∧
    (decodeFields 0x01 0x40).rawOperand = 0x800 := by decide
/-- Each opcode occurs. -/
theorem test_witness_OpcodeMapIsClosed : ∀ k : Fin 8,
    ((BitVec.ofNat 8 k.val : Byte).toNat + 256 * (0 : Byte).toNat) &&& 0x0007 = k.val := by decide
theorem test_witness_EveryInstructionIsTwoBytes :
    (∃ i rest, decode [0x04, 0x00] = .ok (i, rest)) ∧ 2 ≤ ([0x04, 0x00] : List Byte).length :=
  ⟨⟨_, _, rfl⟩, by decide⟩
theorem test_witness_PackingFollowsLayout : (Instr.loadConst (-2048)).wf ∧
    legalOpcode (opcodeNumber (.loadConst (-2048))) = true := by decide
theorem test_witness_DecodeInvertsEncode : (Instr.illegal7 2047).wf ∧ (Instr.sgn (-2048)).wf := by
  decide
/-- Both ends of both clauses. -/
theorem test_witness_SignExtendFormula : (2048 : Pattern).toNat > 2047 ∧
    (4095 : Pattern).toNat > 2047 ∧ (0 : Pattern).toNat ≤ 2047 ∧ (2047 : Pattern).toNat ≤ 2047 := by
  decide
theorem test_witness_ToUnsignedIsExactInverse : InOperandRange (-2048) ∧ InOperandRange (-1) ∧
    InOperandRange 0 ∧ InOperandRange 2047 := by decide
/-- The boundary values of the three clauses. -/
theorem test_witness_SignFunction : sgn (-1) = -1 ∧ sgn 0 = 0 ∧ sgn 1 = 1 := by decide
theorem test_witness_LoadConstCompletes : InOperandRange (-2048) ∧ InOperandRange 2047 := by decide
/-- The first and the last cell. -/
theorem test_witness_LoadMemCompletes : State.reset.inBounds 0 ∧ State.reset.inBounds 255 := by
  decide
theorem test_witness_StoreMemCompletes : (running 5 [(3, 9)] []).mem.wf ∧
    (running 5 [(3, 9)] []).inBounds 0 ∧ (running 5 [(3, 9)] []).inBounds 255 := by decide
/-- An accumulator on each side of each clause. -/
theorem test_witness_SgnCompletes : (running 0xFFF [] []).accValue < 0 ∧
    (running 0 [] []).accValue = 0 ∧ (running 1 [] []).accValue > 0 := by decide
/-- The nearest addresses outside. -/
theorem test_witness_OutOfBoundsAddressRaises : ((-1 : Int) < 0) ∧
    ((256 : Int) ≥ State.reset.config.memSize) := by decide
/-- A completing and a raising instruction. -/
theorem test_witness_NonStoringFrame :
    ((∀ addr, Instr.sgn 0 ≠ .storeMem addr) ∧ ∃ t, exec (.sgn 0) State.reset = .next t ∧
      t.pc ≠ State.reset.pc) ∧
    ((∀ addr, Instr.illegal5 0 ≠ .storeMem addr) ∧
      legalOpcode (opcodeNumber (.illegal5 0)) = false ∧
      ∃ t, exec (.illegal5 0) State.reset = .next t ∧ t.pc = State.reset.pc) :=
  ⟨⟨nofun, _, rfl, by decide⟩, nofun, rfl, _, rfl, rfl⟩
/-- A store in bounds, with another cell beside the one stored to, and a store out of bounds. -/
theorem test_witness_StoringFrame :
    (State.reset.inBounds 255 ∧ (254 : Nat) ≠ (255 : Int).toNat ∧
      ∃ t, exec (.storeMem 255) State.reset = .next t ∧ t.pc ≠ State.reset.pc) ∧
    (¬ State.reset.inBounds 256 ∧ ∃ t, exec (.storeMem 256) State.reset = .next t) :=
  ⟨⟨by decide, by decide, _, rfl, by decide⟩, by decide, _, rfl⟩
theorem test_witness_StoreThenLoadKeepsAccumulator : (running 0x800 [] []).mem.wf ∧
    (running 0x800 [] []).inBounds 255 ∧ ∃ t u, exec (.storeMem 255) (running 0x800 [] []) = .next t ∧
      exec (.loadMem 255) t = .next u := ⟨by decide, by decide, _, _, rfl, rfl⟩
theorem test_witness_SgnTwiceIsSgnOnce :
    ∃ t u, exec (.sgn 5) (running 179 [] []) = .next t ∧ exec (.sgn 0) t = .next u :=
  ⟨_, _, rfl, rfl⟩
theorem test_witness_LoadConstWord : (running 0 [] [0x02, 0xC0]).fault = .none ∧
    WordAt (running 0 [] [0x02, 0xC0]) 0x02 0xC0 ∧ opcodeOf 0x02 = 2 ∧ InOperandRange (-2048) ∧
    rawOperandOf 0x02 0xC0 = tou12 (-2048) := by decide
/-- In bounds (address 255) and out (address 256). -/
theorem test_witness_LoadMemWord :
    ((running 0 [] [0xF9, 0x07]).fault = .none ∧ WordAt (running 0 [] [0xF9, 0x07]) 0xF9 0x07 ∧
      opcodeOf 0xF9 = 1 ∧
      rawOperandOf 0xF9 0x07 = tou12 255 ∧ InOperandRange 255 ∧ State.reset.inBounds 255) ∧
    ((running 0 [] [0x01, 0x08]).fault = .none ∧ WordAt (running 0 [] [0x01, 0x08]) 0x01 0x08 ∧
      opcodeOf 0x01 = 1 ∧
      rawOperandOf 0x01 0x08 = tou12 256 ∧ InOperandRange 256 ∧
      (256 : Int) ≥ State.reset.config.memSize) := by decide
/-- In bounds (address 0) and out (address -1). -/
theorem test_witness_StoreMemWord :
    ((running 5 [] [0x03, 0x00]).fault = .none ∧ (running 5 [] [0x03, 0x00]).mem.wf ∧
      WordAt (running 5 [] [0x03, 0x00]) 0x03 0x00 ∧ opcodeOf 0x03 = 3 ∧ InOperandRange 0 ∧
      rawOperandOf 0x03 0x00 = tou12 0 ∧ State.reset.inBounds 0) ∧
    ((running 5 [] [0xFB, 0x7F]).fault = .none ∧ (running 5 [] [0xFB, 0x7F]).mem.wf ∧
      WordAt (running 5 [] [0xFB, 0x7F]) 0xFB 0x7F ∧ opcodeOf 0xFB = 3 ∧
      rawOperandOf 0xFB 0x7F = tou12 (-1) ∧ InOperandRange (-1)) := by decide
theorem test_witness_SgnWord : WordAt (running 0x800 [] [0x2C, 0x80]) 0x2C 0x80 ∧
    (running 0x800 [] [0x2C, 0x80]).fault = .none ∧ opcodeOf 0x2C = 4 := by decide
theorem test_witness_UnknownOpcodeWord : WordAt (running 1 [] [0xFF, 0xFF]) 0xFF 0xFF ∧
    (running 1 [] [0xFF, 0xFF]).fault = .none ∧ opcodeOf 0xFF = 7 ∧ opcodeOf 0x00 = 0 ∧
    opcodeOf 0x05 = 5 ∧ opcodeOf 0x06 = 6 := by decide
theorem test_witness_StepRunsDecodedInstruction : (running 0 [] [0x0A, 0x00]).fault = .none ∧
    decode ((running 0 [] [0x0A, 0x00]).prog.drop (2 * 0)) = .ok (.loadConst 1, []) := by decide
/-- An enabled state whose step raises, one whose step completes, and a state with no step enabled. -/
theorem test_witness_StepFollowsSequencer : Enabled (running 0 [] [0x00, 0x00]) ∧
    Enabled (running 0 [] [0x0A, 0x00]) ∧ ¬ Enabled State.reset := by decide
theorem test_witness_FaultsArePrecise :
    (∃ t, step (running 0 [] [0x0A, 0x00]) = .next t ∧ t.fault = .none) ∧
    (∃ t, step (running 0 [] [0x00, 0x00]) = .next t ∧ t.fault ≠ .none) :=
  ⟨⟨_, rfl, rfl⟩, _, rfl, by decide⟩
/-- Each status occurs. -/
theorem test_witness_StepEnabledIffRunning : (running 0 [] [0x0A, 0x00]).status = .running ∧
    State.reset.status = .done ∧ (State.reset.latch (.malformedProgram 3)).status = .halted := by
  decide
/-- Two machines that differ in accumulator, memory and memory size. -/
theorem test_witness_FetchIgnoresDataSpace :
    Enabled (running 5 [(1, 2)] [0x0A, 0x00]) ∧
    (running 5 [(1, 2)] [0x0A, 0x00]).prog =
      State.prog { running 7 [] [0x0A, 0x00] with config := ⟨4⟩ } := by decide

/-- A state that is not a reset state and meets the invariant. -/
theorem inv_running : Inv (running 5 [(1, 2)] [0x0B, 0x00]) where
  memWf := by decide
  memInside := by decide
  memReach := by decide
  progEven := by decide
  pcLe := by decide
  latch := trivial

theorem test_witness_StepKeepsInvariant : Inv (running 5 [(1, 2)] [0x0B, 0x00]) ∧
    ∃ t, step (running 5 [(1, 2)] [0x0B, 0x00]) = .next t := ⟨inv_running, _, rfl⟩
theorem test_witness_HostRequestKeepsInvariant : Inv (running 5 [(1, 2)] [0x0B, 0x00]) ∧
    ∃ t reply, serve (.snapshot 0 255) (running 5 [(1, 2)] [0x0B, 0x00]) = .next (t, reply) :=
  ⟨inv_running, _, _, rfl⟩
/-- A state two moves away from reset. -/
theorem test_witness_ReachableStatesMeetInvariant :
    Reachable Config.standard (running 5 [] [0x2A, 0x00]).advance :=
  .move .step (.move (.host (.start [0x2A, 0x00])) .reset rfl) rfl
/-- A machine of 4096 cells with its last reachable cell written. -/
def largeMachine : State := { running 5 [(2047, 2)] [0x0B, 0x00] with config := ⟨4096⟩ }

theorem inv_largeMachine : Inv largeMachine where
  memWf := by decide
  memInside := by decide
  memReach := by decide
  progEven := by decide
  pcLe := by decide
  latch := trivial

/-- The first address of each clause where the other does not hold: 2048 of 4096 cells, and 256 of 256
cells. -/
theorem test_witness_UnreachableCellsHoldZero :
    (Inv largeMachine ∧ (2048 : Nat) ≥ 2048 ∧ ¬ (2048 : Nat) ≥ largeMachine.config.memSize) ∧
    (Inv (running 5 [(1, 2)] [0x0B, 0x00]) ∧ ¬ (256 : Nat) ≥ 2048 ∧
      (256 : Nat) ≥ (running 5 [(1, 2)] [0x0B, 0x00]).config.memSize) :=
  ⟨⟨inv_largeMachine, by decide, by decide⟩, inv_running, by decide, by decide⟩
theorem test_witness_HaltedMachineTakesOnlyReset :
    (State.reset.latch (.malformedProgram 3)).fault ≠ .none := by decide
theorem test_witness_FaultIsSticky : (State.reset.latch (.malformedProgram 3)).fault ≠ .none ∧
    move (.host .observe) (State.reset.latch (.malformedProgram 3)) =
      some (State.reset.latch (.malformedProgram 3)) ∧
    move (.host .reset) (State.reset.latch (.malformedProgram 3)) = some State.reset :=
  ⟨by decide, rfl, rfl⟩
theorem test_witness_MemorySizeIsFixed :
    ∃ t, move (.host .reset) { running 5 [] [] with config := ⟨4⟩ } = some t := ⟨_, rfl⟩
/-- The three clauses: a run in progress, an odd stream, an even one and the empty one. -/
theorem test_witness_StartBindsProgram :
    ((running 0 [] [0x04, 0x00]).fault = .none ∧
      (running 0 [] [0x04, 0x00]).pc < (running 0 [] [0x04, 0x00]).progWords) ∧
    (State.reset.fault = .none ∧ State.reset.pc = State.reset.progWords ∧
      ([0x04] : List Byte).length % 2 = 1 ∧ ([] : List Byte).length % 2 = 0) := by decide
/-- One cell, the last one, and all cells. -/
theorem test_witness_SnapshotReportsCells : State.reset.fault = .none ∧
    ((0 : Int) ≤ 255 ∧ (255 : Int) < State.reset.config.memSize) := by decide
/-- A range reversed by one, a range one past the end and one that begins below 0. -/
theorem test_witness_SnapshotErrors : State.reset.fault = .none ∧ ((1 : Int) > 0) ∧
    ((256 : Int) ≥ State.reset.config.memSize) ∧ ((-1 : Int) ≤ -1 ∧ (-1 : Int) < 0) := by decide
/-- Two words that complete, and one that raises. -/
theorem test_witness_ControlIsStraightLine :
    (∃ t, core.run 2 (running 0 [] [0x0A, 0x00, 0x04, 0x00]) = .next t ∧ State.fault t = .none) ∧
    (∃ t, core.run 1 (running 0 [] [0x00, 0x00]) = .next t ∧ State.fault t ≠ .none) :=
  ⟨⟨_, rfl, rfl⟩, _, rfl, by decide⟩
theorem test_witness_EveryRunEnds : (running 0 [] [0x0A, 0x00]).pc ≤ (running 0 [] [0x0A, 0x00]).progWords := by
  decide

/-- No store among the words of `LOAD_CONST 1`. -/
theorem noStoreTo_loadConst (a : Int) : NoStoreTo [0x0A, 0x00] a 0 1 := by
  intro j _ hj i rest hd
  obtain rfl : j = 0 := by omega
  cases hd
  nofun

theorem test_witness_CellKeepsLatestStore :
    NoStoreTo (running 0 [(7, 9)] [0x0A, 0x00]).prog (7 : Nat) 0 1 ∧
    ∃ t, core.run 1 (running 0 [(7, 9)] [0x0A, 0x00]) = .next t := ⟨noStoreTo_loadConst _, _, rfl⟩

/-- `STORE_MEM 1`, `LOAD_CONST 1`, `LOAD_MEM 1`. -/
def storeConstLoad : State := running 0xFF6 [] [0x0B, 0x00, 0x0A, 0x00, 0x09, 0x00]

theorem test_witness_LoadSeesLatestStore : storeConstLoad.mem.wf ∧ storeConstLoad.fault = .none ∧
    storeConstLoad.inBounds 1 ∧
    (∃ rest, decode (storeConstLoad.prog.drop 0) = .ok (.storeMem 1, rest)) ∧
    NoStoreTo storeConstLoad.prog 1 1 1 ∧
    ∃ t u rest, core.run 2 storeConstLoad = .next t ∧ State.fault t = .none ∧
      decode ((State.prog t).drop (2 * State.pc t)) = .ok (.loadMem 1, rest) ∧ step t = .next u := by
  refine ⟨by decide, rfl, by decide, ⟨_, rfl⟩, ?_, _, _, _, rfl, rfl, rfl, rfl⟩
  intro j h1 hj i rest hd
  obtain rfl : j = 1 := by omega
  cases hd
  nofun

/-- An odd stream, and an even one with a range of one cell. -/
theorem test_witness_InterpretReportsRun : ([0x0A] : List Byte).length % 2 = 1 ∧
    ([0x0A, 0x00] : List Byte).length % 2 = 0 ∧ (0 : Int) ≤ 0 := by decide
theorem test_witness_AssembledLinesDecode :
    assemble [['s', 'g', 'n'], [' ', 'S', 'g', 'N']] = .ok [0x04, 0x00, 0x04, 0x00] ∧
    [['s', 'g', 'n'], [' ', 'S', 'g', 'N']][1]? = some [' ', 'S', 'g', 'N'] := by decide
theorem test_witness_AssembledSourceHasKnownOpcodes :
    assemble [['l', 'o', 'a', 'd', '_', 'm', 'e', 'm', ' ', '-', '1']] = .ok [0xF9, 0x7F] := by decide

end Sys2Proof.Tests
end

/-!
PROOF. The step of the sequencer (spec 10_state.md R27): the closed dispatch over the opcode of a
fetched word, what an illegal opcode and a completing instruction leave behind, and that only an
enabled step gives a next state.
-/

namespace Sys2Proof.Machine

/-- The opcode field of a word selects the arm that executes it, on the decoded operand. -/
theorem exec_decodeWord {byte1 byte2 : Byte} {op : Opcode} {s : State} (h : opcodeOf byte1 = op) :
    exec (decodeWord byte1 byte2) s = exec (instrOf op (decodeFields byte1 byte2).operand) s :=
  congrArg (fun o => exec (instrOf o _) s) h

/-- An illegal opcode does nothing but latch `UnknownOpcode` with its word's index (R151). -/
theorem eq_latch_of_exec_illegal {i : Instr} {s t : State}
    (hl : legalOpcode (opcodeNumber i) = false) (h : exec i s = .next t) :
    t = s.latch (.unknownOpcode s.pc (opcodeNumber i)) := by
  cases exec_cases h with
  | unknownOpcode _ => rfl
  | loadMem _ hi _ => subst hi; cases hl
  | loadConst _ hi => subst hi; cases hl
  | storeMem _ hi _ => subst hi; cases hl
  | sgn _ hi => subst hi; cases hl
  | outOfBounds _ hi _ => rcases hi with rfl | rfl <;> cases hl

/-- An instruction that raised nothing has moved `pc` to the next word (R13, R24). -/
theorem exec_pc_of_no_fault {i : Instr} {s t : State} (h : exec i s = .next t)
    (ht : t.fault = .none) : t.pc = s.pc + 1 := by
  cases exec_cases h with
  | loadMem _ _ _ => rfl
  | loadConst _ _ => rfl
  | storeMem _ _ _ => rfl
  | sgn _ _ => rfl
  | outOfBounds _ _ _ => cases ht
  | unknownOpcode _ => cases ht

/-- A step that gives a next state was enabled. -/
theorem enabled_of_step_next {s t : State} (h : step s = .next t) : Enabled s := by
  obtain ⟨hf, _, _, hw, -⟩ := step_next_iff.1 h
  exact ⟨hf, lt_of_fetch hw⟩

/-- Settles O31: an enabled step executes the word at `pc`, whose opcode selects the arm; conversely a
step that gives a next state has fetched a word, so it was enabled. -/
theorem stepFollowsSequencer : Obligations.StepFollowsSequencer := by
  intro s
  refine ⟨fun ⟨hf, hp⟩ => ?_, fun hne t h => hne (enabled_of_step_next h)⟩
  obtain ⟨byte1, byte2, h1, h2, hstep⟩ := step_of_enabled hf hp
  obtain ⟨t, hexec, -⟩ := exec_effect (decodeWord byte1 byte2) s
  have harm {op : Opcode} (hop : opcodeOf byte1 = op) :
      exec (instrOf op (decodeFields byte1 byte2).operand) s = .next t :=
    (exec_decodeWord hop).symm.trans hexec
  refine ⟨byte1, byte2, t, h1, h2, hstep.trans hexec, harm, harm, harm, fun hop _ => harm hop, ?_,
    exec_pc_of_no_fault hexec⟩
  intro hl
  rw [← opcodeNumber_decodeWord byte1 byte2] at hl ⊢
  exact eq_latch_of_exec_illegal hl hexec

end Sys2Proof.Machine

/-!
PROOF. The word format (spec 30_encoding.md): the decoder's fields and the packed bytes as numbers
(R82, R83, R93), and what a word with an illegal opcode does when it is reached (R89, R151).
-/

namespace Sys2Proof
open Sys2Proof.Machine

/-! ### The decoder's fields -/

theorem opcodeOf_toNat (byte1 : Byte) : (opcodeOf byte1).toNat = byte1.toNat % 8 := by
  simp [opcodeOf]

/-- `byte1[7:3]` is a five-bit number (R81). -/
theorem shiftRight_three_lt (byte1 : Byte) : byte1.toNat >>> 3 < 32 := by
  have := byte1.isLt
  rw [Nat.shiftRight_eq_div_pow]
  omega

/-- The raw operand has the low seven bits of `byte2` above the high five of `byte1`. -/
theorem rawOperandOf_toNat (byte1 byte2 : Byte) :
    (rawOperandOf byte1 byte2).toNat = (byte2.toNat % 128) <<< 5 ||| byte1.toNat >>> 3 := by
  simp only [rawOperandOf, BitVec.toNat_append, BitVec.extractLsb'_toNat]
  simp [Nat.mod_eq_of_lt (shiftRight_three_lt byte1)]

/-- R83: the source's formula, which masks after the shift, gives the raw operand. -/
theorem rawOperandOf_toNat_eq_mask (byte1 byte2 : Byte) :
    (rawOperandOf byte1 byte2).toNat =
      ((byte1.toNat >>> 3) ||| (byte2.toNat <<< 5)) &&& 0xFFF := by
  have hlow : (byte1.toNat >>> 3) % 2 ^ 12 = byte1.toNat >>> 3 :=
    Nat.mod_eq_of_lt ((shiftRight_three_lt byte1).trans (by decide))
  have hhigh : (byte2.toNat <<< 5) % 2 ^ 12 = (byte2.toNat % 128) <<< 5 := by
    simp only [Nat.shiftLeft_eq]
    omega
  calc (rawOperandOf byte1 byte2).toNat
      = byte1.toNat >>> 3 ||| (byte2.toNat % 128) <<< 5 := by
        rw [rawOperandOf_toNat, Nat.or_comm]
    _ = (byte1.toNat >>> 3 ||| byte2.toNat <<< 5) % 2 ^ 12 := by
        rw [Nat.or_mod_two_pow, hlow, hhigh]
    _ = (byte1.toNat >>> 3 ||| byte2.toNat <<< 5) &&& 0xFFF :=
        (Nat.and_two_pow_sub_one_eq_mod _ 12).symm

theorem getLsbD_rawOperandOf_low (byte1 byte2 : Byte) {k : Nat} (hk : k < 5) :
    (rawOperandOf byte1 byte2).getLsbD k = byte1.getLsbD (k + 3) := by
  simp only [rawOperandOf, BitVec.getLsbD_append, BitVec.getLsbD_extractLsb']
  simp [hk, Nat.add_comm]

theorem getLsbD_rawOperandOf_high (byte1 byte2 : Byte) {k : Nat} (hk : k < 7) :
    (rawOperandOf byte1 byte2).getLsbD (k + 5) = byte2.getLsbD k := by
  simp only [rawOperandOf, BitVec.getLsbD_append, BitVec.getLsbD_extractLsb']
  simp [hk]

/-- Settles O1, each field by its formula and each bit by its place. -/
theorem decoderExtractsFields : Obligations.DecoderExtractsFields := by
  intro byte1 byte2
  refine ⟨?_, rawOperandOf_toNat_eq_mask byte1 byte2,
    fun _ hk => getLsbD_rawOperandOf_low byte1 byte2 hk,
    fun _ hk => getLsbD_rawOperandOf_high byte1 byte2 hk⟩
  calc (opcodeOf byte1).toNat
      = byte1.toNat % 2 ^ 3 := opcodeOf_toNat byte1
    _ = byte1.toNat &&& 0b111 := (Nat.and_two_pow_sub_one_eq_mod _ 3).symm

/-! ### The packed bytes -/

theorem packByte1_toNat (op : Opcode) (u : Pattern) :
    (packByte1 op u).toNat = op.toNat ||| ((u.toNat &&& 0x1F) <<< 3) := by
  rw [packByte1, BitVec.toNat_append, BitVec.extractLsb'_toNat, Nat.or_comm]
  simp [Nat.and_two_pow_sub_one_eq_mod u.toNat 5]

theorem packByte2_toNat (u : Pattern) : (packByte2 u).toNat = (u.toNat >>> 5) &&& 0x7F := by
  rw [packByte2, BitVec.toNat_append, BitVec.extractLsb'_toNat]
  simp [Nat.and_two_pow_sub_one_eq_mod (u.toNat >>> 5) 7]

/-- On its domain the source's conversion (R111) is the pattern's number. -/
theorem toUnsigned_toNat {z : Int} (h : InOperandRange z) :
    (toUnsigned z 12).toNat = (tou12 z).toNat := by
  have ht := tou12_toNat z
  obtain ⟨hlow, hhigh⟩ := h
  unfold toUnsigned
  split <;> omega

/-- R93: decoding the packed word of an instruction gives the instruction back. -/
theorem decodeWord_pack {i : Instr} (h : i.wf) :
    decodeWord (packByte1 (opcodeNumber i) (tou12 i.operand)) (packByte2 (tou12 i.operand)) = i := by
  apply instr_ext
  · rw [opcodeNumber_decodeWord, opcodeOf_packByte1]
  · rw [operand_decodeWord, rawOperandOf_pack, sext12_of_tou12 h]

/-- Settles O6: the two packed bytes as numbers, and the word they make decoded. -/
theorem packingFollowsLayout : Obligations.PackingFollowsLayout := by
  intro i hwf _
  rw [toUnsigned_toNat hwf]
  exact ⟨_, _, rfl, packByte1_toNat _ _, packByte2_toNat _,
    decode_ok_iff.2 ⟨_, _, rfl, (decodeWord_pack hwf).symm⟩⟩

/-! ### Illegal opcodes -/

/-- R89: the closed set of the opcodes that stand for no instruction. -/
theorem legalOpcode_eq_false_iff (op : Opcode) :
    legalOpcode op = false ↔ op = 0 ∨ op = 5 ∨ op = 6 ∨ op = 7 := by
  revert op
  decide

/-- R151: the whole next state where the word at `pc` has an illegal opcode. -/
theorem step_of_illegal_word {s : State} {byte1 byte2 : Byte} (hf : s.fault = .none)
    (hw : WordAt s byte1 byte2) (hl : legalOpcode (opcodeOf byte1) = false) :
    step s = .next (s.latch (.unknownOpcode s.pc (opcodeOf byte1))) := by
  obtain ⟨t, hexec, -⟩ := exec_effect (decodeWord byte1 byte2) s
  rw [← opcodeNumber_decodeWord byte1 byte2] at hl ⊢
  rw [step_of_wordAt hf hw, hexec, eq_latch_of_exec_illegal hl hexec]

/-- Settles O29: the step latches the fault and changes nothing else, and the latched fault bars every
later step. -/
theorem unknownOpcodeWord : Obligations.UnknownOpcodeWord := by
  intro s byte1 byte2 hf hw hop
  have hl := (legalOpcode_eq_false_iff (opcodeOf byte1)).2 hop
  exact ⟨_, step_of_illegal_word hf hw hl, rfl, rfl, rfl, rfl, ⟨rfl, rfl⟩, step_of_halted nofun⟩

end Sys2Proof

/-!
PROOF. The converter (spec 40_sign_conversion.md): sign extension on each half of the patterns (R110),
and the source's conversion back as the number of the pattern `tou_12` gives (R111).
-/

namespace Sys2Proof
open Sys2Proof.Machine

/-- R110: the lower half of the patterns maps to itself. -/
theorem sext12_of_le {u : Pattern} (h : u.toNat ≤ 2047) : sext12 u = u.toNat := by
  rw [sext12_eq, if_pos h]

/-- R110: the upper half of the patterns maps to the negative numbers. -/
theorem sext12_of_gt {u : Pattern} (h : u.toNat > 2047) : sext12 u = (u.toNat : Int) - 4096 := by
  rw [sext12_eq, if_neg (Nat.not_le.2 h)]

/-- Settles O11, the formula on each half of the patterns and the range of both. -/
theorem signExtendFormula : Obligations.SignExtendFormula := by
  intro u
  obtain ⟨hlow, hhigh⟩ := sext12_inRange u
  exact ⟨sext12_of_gt, sext12_of_le, rfl, hlow, hhigh⟩

/-- R111: on its domain the source's formula, which adds `4096` to a negative number only, is the
total form `s mod 4096` of `tou_12` (R116). -/
theorem toUnsigned_eq_tou12_toNat {s : Int} (h : InOperandRange s) :
    toUnsigned s 12 = (tou12 s).toNat := by
  obtain ⟨hlow, hhigh⟩ := h
  rw [tou12_toNat, toUnsigned]
  split
  case isTrue hneg => omega
  case isFalse hnonneg => omega

/-- Settles O12: the source's formula is the pattern's number, and `sext_12` and `tou_12` undo each
other on the signed range and on every pattern. -/
theorem toUnsignedIsExactInverse : Obligations.ToUnsignedIsExactInverse := by
  refine ⟨fun s hlow hhigh => ?_, tou12_of_sext12⟩
  have hs : InOperandRange s := ⟨hlow, hhigh⟩
  have hnum := toUnsigned_eq_tou12_toNat hs
  exact ⟨hnum.symm, hnum, sext12_of_tou12 hs⟩

end Sys2Proof

/-!
PROOF. The constant load (spec 41_load_const.md R130): a word's two fields fix the instruction it
decodes to, and a `LOAD_CONST` word leaves its constant in the accumulator and moves `pc` on.
-/

namespace Sys2Proof
open Sys2Proof.Machine

/-- R85, R88: a word whose fields are those of a well-formed instruction decodes to it; `byte2[7]` is
in neither field. -/
theorem decodeWord_of_fields {byte1 byte2 : Byte} {i : Instr} (hwf : i.wf)
    (hop : opcodeOf byte1 = opcodeNumber i) (hz : rawOperandOf byte1 byte2 = tou12 i.operand) :
    decodeWord byte1 byte2 = i := by
  apply instr_ext
  · rw [opcodeNumber_decodeWord, hop]
  · rw [operand_decodeWord, hz, sext12_of_tou12 hwf]

/-- R130: the whole next state of `LOAD_CONST`, which faults in no state. -/
theorem exec_loadConst (c : Int) (s : State) :
    exec (.loadConst c) s = .next (s.setAcc c).advance := rfl

/-- The accumulator holds a constant in range as it is, with its sign (R22, R130). -/
theorem accValue_advance_setAcc {s : State} {c : Int} (hc : InOperandRange c) :
    (s.setAcc c).advance.accValue = c :=
  sext12_of_tou12 hc

/-- Settles O25: the word decodes to `LOAD_CONST c`, whose next state is known in full. -/
theorem loadConstWord : Obligations.LoadConstWord := by
  intro s byte1 byte2 c hf hw hop hc hz
  have hi : decodeWord byte1 byte2 = .loadConst c := decodeWord_of_fields hc hop hz
  have hstep : step s = .next (s.setAcc c).advance := by
    rw [step_of_wordAt hf hw, hi, exec_loadConst]
  exact ⟨_, hstep, accValue_advance_setAcc hc, rfl, rfl, hf, rfl, rfl⟩

end Sys2Proof

/-!
PROOF. The memory access (spec 42_memory_access.md R135, R136): the whole next state of `LOAD_MEM` and
`STORE_MEM` in bounds and out, and what their words do when the step executes them.
-/

namespace Sys2Proof
open Sys2Proof.Machine

/-- R55: the complement of the bounds check, as R135 and R136 write it. -/
theorem not_inBounds_iff {s : State} {addr : Int} :
    ¬ s.inBounds addr ↔ addr < 0 ∨ addr ≥ s.config.memSize := by
  rw [not_and_or, not_le, not_lt]

theorem exec_loadMem_of_inBounds {s : State} {addr : Int} (hb : s.inBounds addr) :
    exec (.loadMem addr) s = .next (s.setAcc (sext12 (s.mem.read addr.toNat))).advance := by
  simp only [exec, execLoadMem, memRead, if_pos hb, complete]

theorem exec_storeMem_of_inBounds {s : State} {addr : Int} (hb : s.inBounds addr) :
    exec (.storeMem addr) s = .next (s.storeCell addr.toNat (tou12 s.accValue)).advance := by
  simp only [exec, execStoreMem, memWrite, if_pos hb, complete]

/-- R55, R56: a failed bounds check does nothing but latch the fault, in a load as in a store. -/
theorem exec_of_not_inBounds {i : Instr} {s : State} {addr : Int}
    (hi : i = .loadMem addr ∨ i = .storeMem addr) (hb : ¬ s.inBounds addr) :
    exec i s = .next (s.latch (.outOfBounds s.pc addr)) := by
  rcases hi with rfl | rfl
  · simp only [exec, execLoadMem, memRead, if_neg hb, raise, boundsFault]
  · simp only [exec, execStoreMem, memWrite, if_neg hb, raise, boundsFault]

/-- R152: the step that fails the bounds check latches the fault and changes nothing else, and the
latched fault bars every later step (R160). -/
theorem step_of_outOfBounds_instr {s : State} {i : Instr} {addr : Int} (hstep : step s = exec i s)
    (hi : i = .loadMem addr ∨ i = .storeMem addr) (hout : addr < 0 ∨ addr ≥ s.config.memSize) :
    ∃ t, step s = .next t ∧ t.fault = .outOfBounds s.pc addr ∧ t.acc = s.acc ∧ t.mem = s.mem ∧
      t.pc = s.pc ∧ KeepsProgram s t ∧ step t = .fault (.halted t.fault) :=
  ⟨_, hstep.trans (exec_of_not_inBounds hi (not_inBounds_iff.2 hout)), rfl, rfl, rfl, rfl,
    ⟨rfl, rfl⟩, step_of_halted nofun⟩

/-- Settles O26: the word decodes to `LOAD_MEM addr`, whose next state the bounds check decides. -/
theorem loadMemWord : Obligations.LoadMemWord := by
  intro s byte1 byte2 addr hf hw hop haddr hz
  have hi : decodeWord byte1 byte2 = .loadMem addr := decodeWord_of_fields haddr hop hz
  have hstep : step s = exec (.loadMem addr) s := by rw [step_of_wordAt hf hw, hi]
  refine ⟨fun hb => ?_, step_of_outOfBounds_instr hstep (.inl rfl)⟩
  exact ⟨_, hstep.trans (exec_loadMem_of_inBounds hb), accValue_advance_setAcc (sext12_inRange _),
    rfl, rfl, hf, rfl, rfl⟩

/-- Settles O27: the word decodes to `STORE_MEM addr`, whose next state the bounds check decides; the
stored pattern is `ACC` as R111 converts it, and the canonical form lets the cell read it back. -/
theorem storeMemWord : Obligations.StoreMemWord := by
  intro s byte1 byte2 addr hwf hf hw hop haddr hz
  have hi : decodeWord byte1 byte2 = .storeMem addr := decodeWord_of_fields haddr hop hz
  have hstep : step s = exec (.storeMem addr) s := by rw [step_of_wordAt hf hw, hi]
  refine ⟨fun hb => ?_, step_of_outOfBounds_instr hstep (.inr rfl)⟩
  refine ⟨_, hstep.trans (exec_storeMem_of_inBounds hb), ?_,
    fun _ ha => Memory.read_write_other s.mem _ ha, rfl, rfl, hf, rfl, rfl⟩
  have hcell : (s.mem.write addr.toNat (tou12 s.accValue)).read addr.toNat = tou12 s.accValue :=
    Memory.read_write_self hwf _ _
  have hacc : InOperandRange s.accValue := sext12_inRange s.acc
  simp only [State.advance_mem, State.storeCell_mem, hcell, toUnsigned_eq_tou12_toNat hacc]

end Sys2Proof

/-!
PROOF. The sign of the accumulator (spec 43_sgn.md R145): the sign function case by case, the whole next
state of `SGN`, and what an `SGN` word does when the step executes it.
-/

namespace Sys2Proof
open Sys2Proof.Machine

/-- R113: the negative case. -/
theorem sgn_of_neg {v : Int} (h : v < 0) : sgn v = -1 := if_pos h

/-- R113: zero is a fixed point. -/
theorem sgn_of_eq_zero {v : Int} (h : v = 0) : sgn v = 0 := by
  rw [sgn, if_neg (not_lt.2 h.ge), if_pos h]

/-- R113: the positive case. -/
theorem sgn_of_pos {v : Int} (h : v > 0) : sgn v = 1 := by
  rw [sgn, if_neg (not_lt.2 h.le), if_neg h.ne']

/-- R145: the whole next state of `SGN`, which reads no operand and faults in no state. -/
theorem exec_sgn (ignored : Int) (s : State) :
    exec (.sgn ignored) s = .next (s.setAcc (sgn s.accValue)).advance := rfl

/-- R145: the whole next state where the word at `pc` has opcode 4; the operand field and `byte2[7]`
do not occur in it. -/
theorem step_of_sgn_word {s : State} {byte1 byte2 : Byte} (hf : s.fault = .none)
    (hw : WordAt s byte1 byte2) (hop : opcodeOf byte1 = 4) :
    step s = .next (s.setAcc (sgn s.accValue)).advance :=
  calc step s = exec (decodeWord byte1 byte2) s := step_of_wordAt hf hw
    _ = exec (.sgn (decodeFields byte1 byte2).operand) s := exec_decodeWord hop
    _ = .next (s.setAcc (sgn s.accValue)).advance := exec_sgn _ s

/-- Settles O28: the next state is known in full and does not depend on the operand field, and the new
accumulator is the sign of the old one, in its three cases. -/
theorem sgnWord : Obligations.SgnWord := by
  intro s byte1 byte2 hf hw hop
  have hacc : (s.setAcc (sgn s.accValue)).advance.accValue = sgn s.accValue :=
    accValue_advance_setAcc (sgn_inRange s.accValue)
  refine ⟨_, step_of_sgn_word hf hw hop, fun hneg => ?_, fun hzero => ?_, fun hpos => ?_,
    rfl, rfl, hf, rfl, rfl⟩
  · exact hacc.trans (sgn_of_neg hneg)
  · exact hacc.trans (sgn_of_eq_zero hzero)
  · exact hacc.trans (sgn_of_pos hpos)

end Sys2Proof

/-!
PROOF. The decoder and the packing function as each other's inverses (spec 30_encoding.md R84 to R94): the
operand and the opcode map of a decoded word, the ignored bit, and the two round trips.
-/

namespace Sys2Proof
open Sys2Proof.Machine

/-! ### The operand and the opcode map -/

/-- Settles O2: the operand is the sign-extended raw operand, which is in range. -/
theorem operandIsSignExtendedForEveryOpcode : Obligations.OperandIsSignExtendedForEveryOpcode := by
  intro byte1 byte2
  exact ⟨sext12_eq _, operand_decodeWord byte1 byte2, decodeWord_wf byte1 byte2⟩

/-- R88: the mask `0x0007` on `w16` selects the opcode field. -/
theorem mask_opcode_eq (byte1 byte2 : Byte) :
    (byte1.toNat + 256 * byte2.toNat) &&& 0x0007 = (opcodeOf byte1).toNat :=
  calc (byte1.toNat + 256 * byte2.toNat) &&& 0x0007
      = (byte1.toNat + 256 * byte2.toNat) % 2 ^ 3 := Nat.and_two_pow_sub_one_eq_mod _ 3
    _ = byte1.toNat % 8 := by omega
    _ = (opcodeOf byte1).toNat := (opcodeOf_toNat byte1).symm

theorem legalOpcode_eq_true_iff (op : Opcode) :
    legalOpcode op = true ↔ op.toNat = 1 ∨ op.toNat = 2 ∨ op.toNat = 3 ∨ op.toNat = 4 := by
  revert op
  decide

/-- Settles O3: a match value of the mask is the opcode, and the opcode selects the constructor. -/
theorem opcodeMapIsClosed : Obligations.OpcodeMapIsClosed := by
  intro byte1 byte2 w16 z
  have hmask : w16 &&& 0x0007 = (opcodeOf byte1).toNat := mask_opcode_eq byte1 byte2
  have hmap (op : Opcode) (h : w16 &&& 0x0007 = op.toNat) :
      decodeWord byte1 byte2 = instrOf op z := by
    rw [← BitVec.eq_of_toNat_eq (hmask.symm.trans h)]
    rfl
  refine ⟨hmap 0, hmap 1, hmap 2, hmap 3, hmap 4, hmap 5, hmap 6, hmap 7, ?_⟩
  rw [hmask]
  exact legalOpcode_eq_true_iff (opcodeOf byte1)

/-! ### The ignored bit -/

/-- R84: only the low seven bits of `byte2` reach the raw operand. -/
theorem rawOperandOf_congr (byte1 : Byte) {byte2 byte2' : Byte}
    (h : ∀ k < 7, byte2.getLsbD k = byte2'.getLsbD k) :
    rawOperandOf byte1 byte2 = rawOperandOf byte1 byte2' := by
  have hlow : byte2.extractLsb' 0 7 = byte2'.extractLsb' 0 7 := by
    apply BitVec.eq_of_getLsbD_eq
    intro k hk
    simp [hk, h k hk]
  rw [rawOperandOf, rawOperandOf, hlow]

theorem getLsbD_or_0x80 (byte2 : Byte) {k : Nat} (hk : k < 7) :
    (byte2 ||| 0x80).getLsbD k = byte2.getLsbD k := by
  have hbit : ∀ k < 7, (0x80 : Byte).getLsbD k = false := by decide
  rw [BitVec.getLsbD_or, hbit k hk, Bool.or_false]

theorem getLsbD_and_0x7F (byte2 : Byte) {k : Nat} (hk : k < 7) :
    (byte2 &&& 0x7F).getLsbD k = byte2.getLsbD k := by
  have hbit : ∀ k < 7, (0x7F : Byte).getLsbD k = true := by decide
  rw [BitVec.getLsbD_and, hbit k hk, Bool.and_true]

theorem decodeFields_or_0x80 (byte1 byte2 : Byte) :
    decodeFields byte1 (byte2 ||| 0x80) = decodeFields byte1 byte2 := by
  rw [decodeFields, rawOperandOf_congr byte1 fun _ hk => getLsbD_or_0x80 byte2 hk]
  rfl

theorem decodeFields_and_0x7F (byte1 byte2 : Byte) :
    decodeFields byte1 (byte2 &&& 0x7F) = decodeFields byte1 byte2 := by
  rw [decodeFields, rawOperandOf_congr byte1 fun _ hk => getLsbD_and_0x7F byte2 hk]
  rfl

theorem decodeWord_and_0x7F (byte1 byte2 : Byte) :
    decodeWord byte1 (byte2 &&& 0x7F) = decodeWord byte1 byte2 := by
  rw [decodeWord, decodeFields_and_0x7F]
  rfl

/-- Settles O5: setting bit 7 and clearing it both leave every output of the decoder. -/
theorem decoderIgnoresTopBit : Obligations.DecoderIgnoresTopBit := by
  intro byte1 byte2
  refine ⟨?_, ?_, decodeWord_and_0x7F byte1 byte2⟩
  · rw [decodeFields_or_0x80, decodeFields_and_0x7F]
  · rw [decodeWord, decodeFields_or_0x80]
    rfl

/-! ### The round trips -/

/-- R94 (a), with any bytes after the packed word. -/
theorem decode_encode_append {i : Instr} (h : i.wf) (rest : List Byte) :
    decode (encode i ++ rest) = .ok (i, rest) :=
  decode_ok_iff.2 ⟨_, _, rfl, (decodeWord_pack h).symm⟩

/-- Settles O7: the packed bytes carry the opcode and the operand's pattern, and an instruction is that
pair; sign extension gives an operand in range back. -/
theorem decodeInvertsEncode : Obligations.DecodeInvertsEncode :=
  fun _ rest h => decode_encode_append h rest

/-- Packing a word's own fields gives its `byte1` back. -/
theorem packByte1_fields (byte1 byte2 : Byte) :
    packByte1 (opcodeOf byte1) (rawOperandOf byte1 byte2) = byte1 := by
  apply BitVec.eq_of_getLsbD_eq
  intro k hk
  simp only [packByte1, BitVec.getLsbD_append, BitVec.getLsbD_extractLsb']
  by_cases h3 : k < 3
  · simp [opcodeOf, h3]
  · have hlow : k - 3 < 5 := by omega
    simp only [h3, hlow, if_false, decide_true, Bool.true_and, Nat.zero_add]
    rw [getLsbD_rawOperandOf_low byte1 byte2 hlow, Nat.sub_add_cancel (by omega)]

/-- Packing a word's own fields gives its `byte2` back with the ignored bit clear. -/
theorem packByte2_fields (byte1 byte2 : Byte) :
    packByte2 (rawOperandOf byte1 byte2) = byte2 &&& 0x7F := by
  apply BitVec.eq_of_getLsbD_eq
  intro k hk
  by_cases h7 : k < 7
  · rw [getLsbD_and_0x7F byte2 h7, packByte2, BitVec.getLsbD_append, BitVec.getLsbD_extractLsb',
      Nat.add_comm 5 k, getLsbD_rawOperandOf_high byte1 byte2 h7]
    simp [h7]
  · obtain rfl : k = 7 := by omega
    rw [Laws.PackedWord.packByte2_top_clear, BitVec.getLsbD_and]
    exact (Bool.and_false _).symm

/-- R94 (b). -/
theorem encode_decodeWord (byte1 byte2 : Byte) :
    encode (decodeWord byte1 byte2) = [byte1, byte2 &&& 0x7F] := by
  rw [encode, opcodeNumber_decodeWord, operand_decodeWord, tou12_of_sext12, packByte1_fields,
    packByte2_fields]

/-- Settles O8: the pattern of the decoded operand is the raw operand, and the two fields packed again
are the word's own bits. -/
theorem encodeInvertsDecode : Obligations.EncodeInvertsDecode := encode_decodeWord

/-- Settles O9: equal instructions pack to equal bytes, and clearing the ignored bit keeps what a word
decodes to. -/
theorem twoWordsForEachInstruction : Obligations.TwoWordsForEachInstruction := by
  intro b1 b2 c1 c2
  constructor
  · intro h
    have hbytes : [b1, b2 &&& 0x7F] = [c1, c2 &&& 0x7F] := by
      rw [← encode_decodeWord, ← encode_decodeWord, h]
    simpa using hbytes
  · rintro ⟨rfl, h⟩
    rw [← decodeWord_and_0x7F b1 b2, h, decodeWord_and_0x7F]

@[simp] theorem length_encode (i : Instr) : (encode i).length = 2 := rfl

/-- Settles O4: `decode_ok_iff` says that what decodes is a whole word and what follows it. -/
theorem everyInstructionIsTwoBytes : Obligations.EveryInstructionIsTwoBytes := by
  refine ⟨fun bytes i rest h => ?_, fun bytes h => ?_, length_encode⟩
  · obtain ⟨byte1, byte2, hbytes, -⟩ := decode_ok_iff.1 h
    exact ⟨byte1, byte2, hbytes⟩
  · match bytes, h with
    | byte1 :: byte2 :: rest, _ => exact ⟨decodeWord byte1 byte2, rest, rfl⟩

/-- Settles O10: eight fixed words, each evaluated by the decoder. -/
theorem wordsOfEveryFamilyDecode : Obligations.WordsOfEveryFamilyDecode := by
  unfold Obligations.WordsOfEveryFamilyDecode
  decide

end Sys2Proof

/-!
PROOF. The sign of a pattern in bits (spec 40_sign_conversion.md R113; 20_memory.md R57).
-/

namespace Sys2Proof
open Sys2Proof.Machine

theorem sgn_sgn (v : Int) : sgn (sgn v) = sgn v := by
  rcases lt_trichotomy v 0 with h | h | h
  · rw [sgn_of_neg h]
    rfl
  · rw [sgn_of_eq_zero h]
    rfl
  · rw [sgn_of_pos h]
    rfl

/-- Bit 11 of a pattern says in which half of the patterns it lies. -/
theorem getLsbD_eleven_iff (p : Pattern) : p.getLsbD 11 = true ↔ p.toNat > 2047 := by
  have hmsb : p.getLsbD 11 = decide (2048 ≤ p.toNat) :=
    (BitVec.msb_eq_getLsbD_last p).symm.trans (BitVec.msb_eq_decide p)
  rw [hmsb, decide_eq_true_iff]
  omega

/-- R110: bit 11 is the sign of the value. -/
theorem sext12_neg_iff (p : Pattern) : sext12 p < 0 ↔ p.getLsbD 11 = true := by
  have hlt := p.isLt
  rw [getLsbD_eleven_iff, sext12_eq]
  split <;> omega

theorem sext12_zero : sext12 0 = 0 := rfl

theorem sext12_eq_zero_iff (p : Pattern) : sext12 p = 0 ↔ p = 0 := by
  constructor
  · intro h
    rw [← tou12_of_sext12 p, h]
    rfl
  · rintro rfl
    exact sext12_zero

/-- Settles O13: the three cases of the sign, and bit 11 and the zero pattern deciding between them. -/
theorem signFunction : Obligations.SignFunction := by
  refine ⟨fun s => ⟨sgn_of_neg, sgn_of_eq_zero, sgn_of_pos⟩, sgn_sgn, fun p => ?_⟩
  by_cases hneg : p.getLsbD 11 = true
  · rw [if_pos hneg, sgn_of_neg ((sext12_neg_iff p).2 hneg)]
    rfl
  · have hnonneg : ¬ sext12 p < 0 := fun h => hneg ((sext12_neg_iff p).1 h)
    rw [if_neg hneg]
    by_cases hzero : p = 0
    · rw [if_pos hzero, sgn_of_eq_zero ((sext12_eq_zero_iff p).2 hzero)]
      rfl
    · have hne : sext12 p ≠ 0 := fun h => hzero ((sext12_eq_zero_iff p).1 h)
      rw [if_neg hzero, sgn_of_pos (by omega)]
      rfl

/-- Settles O22: bit 11 is the sign, and with bit 11 clear the low 11 bits are the whole value. -/
theorem boundsCheckInBits : Obligations.BoundsCheckInBits := by
  intro s raw
  have hlow : (raw.extractLsb' 0 11).toNat = raw.toNat % 2048 := by simp
  rw [hlow]
  by_cases hbit : raw.getLsbD 11 = true
  · have hneg := (sext12_neg_iff raw).2 hbit
    simp only [hbit, Bool.true_eq_false, false_and, iff_false]
    exact fun hb => absurd hb.1 (not_le.2 hneg)
  · have hle : raw.toNat ≤ 2047 := not_lt.1 fun h => hbit ((getLsbD_eleven_iff raw).2 h)
    have hclear : raw.getLsbD 11 = false := Bool.eq_false_iff.2 hbit
    rw [State.inBounds, sext12_of_le hle, Nat.mod_eq_of_lt (Nat.lt_succ_of_le hle), hclear]
    simp only [true_and]
    omega

end Sys2Proof

/-!
PROOF. What one instruction does to a state (spec 41_load_const.md to 43_sgn.md; 00_scope.md R12, R13): it
completes or it raises, the completions in full, and the frames.
-/

namespace Sys2Proof
open Sys2Proof.Machine

/-! ### Completing and raising -/

/-- R12, R13: an instruction completes, with `pc` one more and `FAULT` kept, or it raises, which changes
`FAULT` alone. -/
theorem exec_completes_or_raises {i : Instr} {s t : State} (h : exec i s = .next t) :
    (t.pc = s.pc + 1 ∧ t.fault = s.fault) ∨ ∃ k, k ≠ .none ∧ t = s.latch k := by
  cases exec_cases h with
  | loadMem _ _ _ => exact .inl ⟨rfl, rfl⟩
  | loadConst _ _ => exact .inl ⟨rfl, rfl⟩
  | storeMem _ _ _ => exact .inl ⟨rfl, rfl⟩
  | sgn _ _ => exact .inl ⟨rfl, rfl⟩
  | outOfBounds addr _ _ => exact .inr ⟨.outOfBounds s.pc addr, nofun, rfl⟩
  | unknownOpcode _ => exact .inr ⟨.unknownOpcode s.pc (opcodeNumber i), nofun, rfl⟩

/-- An instruction that has moved `pc` on raised nothing. -/
theorem exec_fault_of_pc_ne {i : Instr} {s t : State} (h : exec i s = .next t)
    (hpc : t.pc ≠ s.pc) : t.fault = s.fault := by
  rcases exec_completes_or_raises h with ⟨-, hf⟩ | ⟨k, -, rfl⟩
  · exact hf
  · exact absurd rfl hpc

/-- An instruction that has not moved `pc` raised, and left the accumulator. -/
theorem exec_acc_of_pc_eq {i : Instr} {s t : State} (h : exec i s = .next t)
    (hpc : t.pc = s.pc) : t.acc = s.acc := by
  rcases exec_completes_or_raises h with ⟨hpc', -⟩ | ⟨k, -, rfl⟩
  · omega
  · rfl

/-- Only a `STORE_MEM` whose address is in bounds writes the memory, and only the cell it names. -/
theorem exec_read_other {i : Instr} {s t : State} {a : Nat} (h : exec i s = .next t)
    (ha : ∀ addr : Int, s.inBounds addr → i = .storeMem addr → a ≠ addr.toNat) :
    t.mem.read a = s.mem.read a := by
  cases exec_cases h with
  | loadMem _ _ _ => rfl
  | loadConst _ _ => rfl
  | storeMem addr hi hb => exact Memory.read_write_other s.mem _ (ha addr hb hi)
  | sgn _ _ => rfl
  | outOfBounds _ _ _ => rfl
  | unknownOpcode _ => rfl

/-! ### The completions -/

/-- Settles O14: the next state is known in full, and a constant in range is read back as it is. -/
theorem loadConstCompletes : Obligations.LoadConstCompletes := fun c s hc =>
  ⟨_, exec_loadConst c s, accValue_advance_setAcc hc, rfl, rfl, rfl, rfl, rfl⟩

/-- Settles O15: in bounds the next state is known in full. -/
theorem loadMemCompletes : Obligations.LoadMemCompletes := fun _ _ h0 hlt =>
  ⟨_, exec_loadMem_of_inBounds ⟨h0, hlt⟩, accValue_advance_setAcc (sext12_inRange _),
    rfl, rfl, rfl, rfl, rfl⟩

/-- The stored pattern is the accumulator's own. -/
theorem tou12_accValue (s : State) : tou12 s.accValue = s.acc := tou12_of_sext12 s.acc

/-- R136: the whole next state of a store in bounds. -/
theorem exec_storeMem_acc {s : State} {addr : Int} (hb : s.inBounds addr) :
    exec (.storeMem addr) s = .next (s.storeCell addr.toNat s.acc).advance := by
  rw [exec_storeMem_of_inBounds hb, tou12_accValue]

/-- R111: the accumulator's pattern is its value converted back. -/
theorem toUnsigned_accValue (s : State) : toUnsigned s.accValue 12 = s.acc.toNat := by
  have hacc : InOperandRange s.accValue := sext12_inRange s.acc
  rw [toUnsigned_eq_tou12_toNat hacc, tou12_accValue]

/-- Settles O16: in bounds the next state is the one write, and the canonical form lets the cell read it
back and is kept. -/
theorem storeMemCompletes : Obligations.StoreMemCompletes := by
  intro addr s hwf h0 hlt
  have hcell : (s.mem.write addr.toNat s.acc).read addr.toNat = s.acc :=
    Memory.read_write_self hwf _ _
  refine ⟨_, exec_storeMem_acc ⟨h0, hlt⟩, ?_, fun a ha => Memory.read_write_other s.mem _ ha,
    Memory.write_wf hwf _ _, rfl, rfl, rfl, rfl, rfl⟩
  simp only [State.advance_mem, State.storeCell_mem, hcell, toUnsigned_accValue]

/-- Settles O17: the next state is known in full, and the new accumulator is the sign of the old one, in
its three cases. -/
theorem sgnCompletes : Obligations.SgnCompletes := by
  intro z s
  have hacc : (s.setAcc (sgn s.accValue)).advance.accValue = sgn s.accValue :=
    accValue_advance_setAcc (sgn_inRange s.accValue)
  exact ⟨_, exec_sgn z s, fun h => hacc.trans (sgn_of_neg h), fun h => hacc.trans (sgn_of_eq_zero h),
    fun h => hacc.trans (sgn_of_pos h), rfl, rfl, rfl, rfl, rfl⟩

/-! ### The raises -/

/-- Settles O18: each of the four meanings is the one latch. -/
theorem illegalOpcodesRaise : Obligations.IllegalOpcodesRaise :=
  fun _ _ => ⟨rfl, rfl, rfl, rfl⟩

/-- Settles O19: outside the bounds both instructions do nothing but latch the fault. -/
theorem outOfBoundsAddressRaises : Obligations.OutOfBoundsAddressRaises := by
  intro addr s hout
  have hb : ¬ s.inBounds addr := not_inBounds_iff.2 hout
  exact ⟨exec_of_not_inBounds (.inl rfl) hb, exec_of_not_inBounds (.inr rfl) hb⟩

/-! ### The frames -/

/-- Settles O20: no cell is named by an instruction that is no store, and `pc` tells a completion from a
raise. -/
theorem nonStoringFrame : Obligations.NonStoringFrame := by
  intro i s t hi h
  refine ⟨fun a => exec_read_other h fun addr _ hs => absurd hs (hi addr), exec_keepsProgram h,
    fun hl => ?_, exec_acc_of_pc_eq h, exec_fault_of_pc_ne h⟩
  rw [eq_latch_of_exec_illegal hl h]
  exact ⟨rfl, rfl⟩

theorem exec_storeMem_keeps_acc {addr : Int} {s t : State} (h : exec (.storeMem addr) s = .next t) :
    t.acc = s.acc := by
  cases exec_cases h with
  | storeMem _ _ _ => rfl
  | outOfBounds _ _ _ => rfl
  | unknownOpcode _ => rfl
  | loadMem _ hi _ => cases hi
  | loadConst _ hi => cases hi
  | sgn _ hi => cases hi

/-- Settles O21: a store names the one cell of its address, and that only in bounds. -/
theorem storingFrame : Obligations.StoringFrame := by
  intro addr s t h
  refine ⟨fun a _ ha => ?_, fun hb a => ?_, exec_storeMem_keeps_acc h, exec_keepsProgram h,
    exec_fault_of_pc_ne h⟩
  · refine exec_read_other h fun addr' _ hi => ?_
    cases hi
    exact ha
  · refine exec_read_other h fun addr' hb' hi => ?_
    cases hi
    exact absurd hb' hb

/-! ### Two instructions in a row -/

/-- A load in bounds of a cell that holds `u` leaves `u` in the accumulator (R115). -/
theorem acc_of_exec_loadMem {addr : Int} {s t : State} {u : Pattern}
    (h : exec (.loadMem addr) s = .next t) (hb : s.inBounds addr)
    (hu : s.mem.read addr.toNat = u) : t.acc = u := by
  rw [exec_loadMem_of_inBounds hb] at h
  cases h
  rw [State.advance_acc, State.setAcc_acc, tou12_of_sext12, hu]

/-- Settles O23: the load reads the pattern the store wrote, which is the accumulator's. -/
theorem storeThenLoadKeepsAccumulator : Obligations.StoreThenLoadKeepsAccumulator := by
  intro addr s t u hwf hb hstore hload
  rw [exec_storeMem_acc hb] at hstore
  cases hstore
  have hacc : u.acc = s.acc := acc_of_exec_loadMem hload hb (Memory.read_write_self hwf _ _)
  exact ⟨hacc, congrArg sext12 hacc⟩

/-- Settles O24: the sign is a fixed point of the sign function. -/
theorem sgnTwiceIsSgnOnce : Obligations.SgnTwiceIsSgnOnce := by
  intro y z s t u hfirst hsecond
  rw [exec_sgn] at hfirst hsecond
  cases hfirst
  cases hsecond
  simp only [State.advance_acc, State.setAcc_acc]
  rw [accValue_advance_setAcc (sgn_inRange _), sgn_sgn]

end Sys2Proof

/-!
PROOF. One step (spec 10_state.md R27, R28): the run status and what the step answers in each, precise
faults, and the fetch.
-/

namespace Sys2Proof
open Sys2Proof.Machine

/-- The word at `pc`, given as what decodes, is what a step with no fault latched executes. -/
theorem step_of_decode {s : State} {i : Instr} {rest : List Byte} (hf : s.fault = .none)
    (hd : decode (s.prog.drop (2 * s.pc)) = .ok (i, rest)) : step s = exec i s := by
  rw [step, if_pos hf, fetch, hd]

/-- Settles O30: what decodes is a decoded word, whose operand is in range. -/
theorem stepRunsDecodedInstruction : Obligations.StepRunsDecodedInstruction := by
  intro s i rest hf hd
  obtain ⟨byte1, byte2, -, hi⟩ := decode_ok_iff.1 hd
  exact ⟨hi ▸ decodeWord_wf byte1 byte2, step_of_decode hf hd⟩

/-- A step gives a next state wherever it is enabled (R27). -/
theorem step_next_of_enabled {s : State} (h : Enabled s) : ∃ t, step s = .next t := by
  obtain ⟨byte1, byte2, -, -, hstep⟩ := step_of_enabled h.1 h.2
  obtain ⟨t, hexec, -⟩ := exec_effect (decodeWord byte1 byte2) s
  exact ⟨t, hstep.trans hexec⟩

theorem status_of_halted {s : State} (hf : s.fault ≠ .none) : s.status = .halted := if_pos hf

theorem status_of_no_fault {s : State} (hf : s.fault = .none) :
    s.status = if s.pc < s.progWords then .running else .done := if_neg (not_not_intro hf)

/-- R28: the three statuses, each with what a step answers in it. -/
theorem status_cases (s : State) :
    (s.status = .running ∧ ∃ t, step s = .next t) ∨ (s.status = .done ∧ step s = .fault .done) ∨
      (s.status = .halted ∧ step s = .fault (.halted s.fault)) := by
  by_cases hf : s.fault = .none
  · rw [status_of_no_fault hf]
    by_cases hp : s.pc < s.progWords
    · exact .inl ⟨if_pos hp, step_next_of_enabled ⟨hf, hp⟩⟩
    · exact .inr (.inl ⟨if_neg hp, step_of_done hf hp⟩)
  · exact .inr (.inr ⟨status_of_halted hf, step_of_halted hf⟩)

/-- Settles O32: the statuses differ from each other, and so do the answers that go with them. -/
theorem stepEnabledIffRunning : Obligations.StepEnabledIffRunning := by
  intro s
  rcases status_cases s with ⟨hs, t, hstep⟩ | ⟨hs, hstep⟩ | ⟨hs, hstep⟩
  · simp [hs, hstep]
  · simp [hs, hstep]
  · simp [hs, hstep]

/-- R12, R159: a step completes with `pc` one more, or it raises and changes `FAULT` alone. -/
theorem step_completes_or_raises {s t : State} (h : step s = .next t) :
    (t.fault = .none ∧ t.pc = s.pc + 1) ∨ ∃ k, k ≠ .none ∧ t = s.latch k := by
  obtain ⟨hf, i, rest, -, hexec⟩ := step_next_iff.1 h
  exact (exec_completes_or_raises hexec).imp_left fun ⟨hpc, hfault⟩ => ⟨hfault.trans hf, hpc⟩

/-- Settles O33, the two ways a step ends. -/
theorem faultsArePrecise : Obligations.FaultsArePrecise := by
  intro s t h
  rcases step_completes_or_raises h with hc | ⟨k, hk, rfl⟩
  · exact .inl hc
  · exact .inr ⟨hk, rfl⟩

/-- Settles O34: the two bytes at `pc` are the same in both machines, and they fix the instruction. -/
theorem fetchIgnoresDataSpace : Obligations.FetchIgnoresDataSpace := by
  intro s u hprog hpc hfault hen
  obtain ⟨byte1, byte2, h1, h2, hstep⟩ := step_of_enabled hen.1 hen.2
  have hu : WordAt u byte1 byte2 := by
    rw [WordAt, ← hprog, ← hpc]
    exact ⟨h1, h2⟩
  exact ⟨decodeWord byte1 byte2, hstep, step_of_wordAt (hfault ▸ hen.1) hu,
    fun t ht => (step_keepsProgram ht).1⟩

end Sys2Proof

/-!
PROOF. The host's requests (spec 70_reset_and_hazards.md R180, R183; 20_memory.md R59): each request in
each case of its admission, and everything a served request can do to the state.
-/

namespace Sys2Proof
open Sys2Proof.Machine

/-! ### The requests, case by case -/

theorem hostStart_of_halted {s : State} (bytes : List Byte) (hf : s.fault ≠ .none) :
    hostStart bytes s = .refused .startWhileHalted := if_pos hf

theorem hostStart_of_running {s : State} (bytes : List Byte) (hf : s.fault = .none)
    (hp : s.pc < s.progWords) : hostStart bytes s = .refused .startWhileRunning := by
  simp [hostStart, hf, hp]

theorem hostStart_of_odd {s : State} {bytes : List Byte} (hf : s.fault = .none)
    (hp : ¬ s.pc < s.progWords) (hodd : bytes.length % 2 = 1) :
    hostStart bytes s = .next (s.latch (.malformedProgram bytes.length), .nothing) := by
  simp [hostStart, hf, hp, hodd]

theorem hostStart_of_even {s : State} {bytes : List Byte} (hf : s.fault = .none)
    (hp : ¬ s.pc < s.progWords) (heven : bytes.length % 2 = 0) :
    hostStart bytes s = .next (s.bindProgram bytes, .nothing) := by
  simp [hostStart, hf, hp, heven]

theorem hostSnapshot_of_halted {s : State} (first last : Int) (hf : s.fault ≠ .none) :
    hostSnapshot first last s = .refused .snapshotWhileHalted := if_pos hf

theorem hostSnapshot_of_reversed {s : State} {first last : Int} (hf : s.fault = .none)
    (hr : first > last) : hostSnapshot first last s = .refused .snapshotReversed := by
  simp [hostSnapshot, hf, hr]

theorem hostSnapshot_of_outside {s : State} {first last : Int} (hf : s.fault = .none)
    (hr : first ≤ last) (ho : first < 0 ∨ last ≥ s.config.memSize) :
    hostSnapshot first last s = .next (s, .snapErr first last) := by
  rw [hostSnapshot, if_neg (not_not_intro hf), if_neg (not_lt.2 hr), if_pos ho]

theorem hostSnapshot_of_inside {s : State} {first last : Int} (hf : s.fault = .none)
    (hr : first ≤ last) (ho : ¬ (first < 0 ∨ last ≥ s.config.memSize)) :
    hostSnapshot first last s =
      .next (s, .pairs (snapshotPairs s.mem first (last - first + 1).toNat)) := by
  rw [hostSnapshot, if_neg (not_not_intro hf), if_neg (not_lt.2 hr), if_neg ho]

/-- A range that is not reversed gets a reply with no change of state (R59). -/
theorem hostSnapshot_served {s : State} {first last : Int} (hf : s.fault = .none)
    (hr : first ≤ last) : ∃ reply, hostSnapshot first last s = .next (s, reply) := by
  by_cases ho : first < 0 ∨ last ≥ s.config.memSize
  · exact ⟨_, hostSnapshot_of_outside hf hr ho⟩
  · exact ⟨_, hostSnapshot_of_inside hf hr ho⟩

/-! ### Everything a served request does -/

/-- What a served request does to the state (R187). -/
inductive ServeEffect (s : State) : Request → State → Prop where
  | reset : ServeEffect s .reset (State.resetWith s.config)
  | startOdd (bytes : List Byte) : s.fault = .none → ¬ s.pc < s.progWords → bytes.length % 2 = 1 →
      ServeEffect s (.start bytes) (s.latch (.malformedProgram bytes.length))
  | startEven (bytes : List Byte) : s.fault = .none → ¬ s.pc < s.progWords →
      bytes.length % 2 = 0 → ServeEffect s (.start bytes) (s.bindProgram bytes)
  | snapshot (first last : Int) : s.fault = .none → first ≤ last →
      ServeEffect s (.snapshot first last) s
  | observe : ServeEffect s .observe s

theorem hostStart_cases {bytes : List Byte} {s t : State} {reply : Reply}
    (h : hostStart bytes s = .next (t, reply)) : ServeEffect s (.start bytes) t := by
  by_cases hf : s.fault = .none
  · by_cases hp : s.pc < s.progWords
    · rw [hostStart_of_running bytes hf hp] at h
      cases h
    · rcases Nat.mod_two_eq_zero_or_one bytes.length with heven | hodd
      · rw [hostStart_of_even hf hp heven] at h
        cases h
        exact .startEven bytes hf hp heven
      · rw [hostStart_of_odd hf hp hodd] at h
        cases h
        exact .startOdd bytes hf hp hodd
  · rw [hostStart_of_halted bytes hf] at h
    cases h

theorem hostSnapshot_cases {first last : Int} {s t : State} {reply : Reply}
    (h : hostSnapshot first last s = .next (t, reply)) :
    ServeEffect s (.snapshot first last) t := by
  by_cases hf : s.fault = .none
  · by_cases hr : first ≤ last
    · obtain ⟨reply', hserved⟩ := hostSnapshot_served hf hr
      rw [hserved] at h
      cases h
      exact .snapshot first last hf hr
    · rw [hostSnapshot_of_reversed hf (not_le.1 hr)] at h
      cases h
  · rw [hostSnapshot_of_halted first last hf] at h
    cases h

theorem serve_cases {r : Request} {s t : State} {reply : Reply}
    (h : serve r s = .next (t, reply)) : ServeEffect s r t := by
  cases r with
  | reset => cases h; exact .reset
  | start bytes => exact hostStart_cases h
  | snapshot first last => exact hostSnapshot_cases h
  | observe => cases h; exact .observe

theorem serve_keeps_config {r : Request} {s t : State} {reply : Reply}
    (h : serve r s = .next (t, reply)) : t.config = s.config := by
  cases serve_cases h <;> rfl

/-! ### Reset, faults, `Start` and `Snapshot` -/

/-- The empty program has no word left to run. -/
theorem not_running_resetWith (c : Config) :
    ¬ (State.resetWith c).pc < (State.resetWith c).progWords := by
  simp [State.progWords]

/-- After reset the empty program has run to its end (R28). -/
theorem status_resetWith (c : Config) : (State.resetWith c).status = .done :=
  (status_of_no_fault rfl).trans (if_neg (not_running_resetWith c))

/-- Settles O40: the reset state has all the values, and `State.reset` is one. -/
theorem resetLeavesResetValues : Obligations.ResetLeavesResetValues := by
  refine ⟨fun s => ?_, sext12_zero, fun _ => rfl, rfl, rfl, rfl, rfl⟩
  exact ⟨_, rfl, sext12_zero, fun _ => rfl, rfl, rfl, rfl, rfl, status_resetWith s.config⟩

/-- Settles O41: each of the machine's moves but `Reset` asks first that no fault is latched. -/
theorem haltedMachineTakesOnlyReset : Obligations.HaltedMachineTakesOnlyReset := fun _ hf =>
  ⟨fun _ h => hf (enabled_of_step_next h).1, fun bytes => hostStart_of_halted bytes hf,
    fun first last => hostSnapshot_of_halted first last hf, _, rfl, rfl⟩

/-- Settles O42: of everything a move can do, only `Reset` and the reads are open to a halted machine. -/
theorem faultIsSticky : Obligations.FaultIsSticky := by
  intro m s t hf h
  rcases move_cases h with ⟨-, hstep⟩ | ⟨r, reply, rfl, hserve⟩
  · exact absurd (enabled_of_step_next hstep).1 hf
  · cases serve_cases hserve with
    | reset => exact .inl rfl
    | startOdd _ hnone _ _ => exact absurd hnone hf
    | startEven _ hnone _ _ => exact absurd hnone hf
    | snapshot _ _ hnone _ => exact absurd hnone hf
    | observe => exact .inr rfl

/-- No move changes the parameters of the machine. -/
theorem move_keeps_config {m : Move} {s t : State} (h : move m s = some t) :
    t.config = s.config := by
  rcases move_cases h with ⟨-, hstep⟩ | ⟨r, reply, -, hserve⟩
  · exact (step_keepsProgram hstep).2
  · exact serve_keeps_config hserve

/-- Settles O43, for a step and for a request. -/
theorem memorySizeIsFixed : Obligations.MemorySizeIsFixed := fun _ _ _ => move_keeps_config

/-- A program of whole words just bound runs unless it is empty (R183). -/
theorem status_bindProgram_running_iff {s : State} {bytes : List Byte} (hf : s.fault = .none)
    (heven : bytes.length % 2 = 0) : (s.bindProgram bytes).status = .running ↔ bytes ≠ [] := by
  have hlen : bytes ≠ [] ↔ 0 < bytes.length / 2 := by
    rw [← List.length_pos_iff]
    omega
  have hrun : (s.bindProgram bytes).status =
      if 0 < bytes.length / 2 then .running else .done := status_of_no_fault hf
  rw [hrun, hlen]
  split
  case isTrue h => simp [h]
  case isFalse h => simp [h]

/-- Settles O44: the three cases of `Start` with no fault latched. -/
theorem startBindsProgram : Obligations.StartBindsProgram := by
  intro s bytes hf
  refine ⟨hostStart_of_running bytes hf, fun hp hodd => ?_, fun hp heven => ?_⟩
  · exact ⟨_, hostStart_of_odd hf hp.not_lt hodd, rfl, status_of_halted nofun⟩
  · exact ⟨_, hostStart_of_even hf hp.not_lt heven, rfl, status_bindProgram_running_iff hf heven⟩

/-- Settles O45: the pairs of a snapshot by their number and by their place. -/
theorem snapshotReportsCells : Obligations.SnapshotReportsCells := by
  intro s first last hf h0 hr hlast
  refine ⟨_, hostSnapshot_of_inside hf hr (by omega), ?_, fun k hk => ?_⟩
  · rw [snapshotPairs_length]
    omega
  · rw [snapshotPairs_length] at hk
    exact snapshotPairs_getElem? s.mem first hk

/-- Settles O46: the two bad ranges. -/
theorem snapshotErrors : Obligations.SnapshotErrors := fun _ _ _ hf =>
  ⟨hostSnapshot_of_reversed hf, hostSnapshot_of_outside hf⟩

end Sys2Proof

/-!
PROOF. The invariant (spec 10_state.md sections 2 to 9; 20_memory.md R52): it holds at reset, each named
update of the state keeps it under the guard the update runs under, and so every move does.
-/

namespace Sys2Proof
open Sys2Proof.Machine

/-! ### The updates of the state -/

theorem inv_resetWith (c : Config) : Inv (State.resetWith c) where
  memWf := Memory.nil_wf
  memInside := nofun
  memReach := nofun
  progEven := rfl
  pcLe := Nat.zero_le _
  latch := trivial

/-- The invariant does not speak of the accumulator. -/
theorem inv_setAcc {s : State} (h : Inv s) (v : Int) : Inv (s.setAcc v) :=
  ⟨h.memWf, h.memInside, h.memReach, h.progEven, h.pcLe, h.latch⟩

/-- A store keeps the invariant where an instruction can name the cell and the memory has it. -/
theorem inv_storeCell {s : State} {a : Nat} (h : Inv s) (hsize : a < s.config.memSize)
    (hreach : a < 2048) (v : Pattern) : Inv (s.storeCell a v) where
  memWf := Memory.write_wf h.memWf a v
  memInside e he := by
    rcases Memory.mem_write he with ⟨rfl, -⟩ | he
    · exact hsize
    · exact h.memInside e he
  memReach e he := by
    rcases Memory.mem_write he with ⟨rfl, -⟩ | he
    · exact hreach
    · exact h.memReach e he
  progEven := h.progEven
  pcLe := h.pcLe
  latch := h.latch

theorem latchFits_of_no_fault {s : State} (hf : s.fault = .none) : LatchFits s := by
  rw [LatchFits, hf]
  trivial

/-- Moving on keeps the invariant where a step is enabled. -/
theorem inv_advance {s : State} (h : Inv s) (hen : Enabled s) : Inv s.advance :=
  ⟨h.memWf, h.memInside, h.memReach, h.progEven, hen.2, latchFits_of_no_fault hen.1⟩

/-- Latching a fault keeps the invariant where the fault is true of the state. -/
theorem inv_latch {s : State} {k : FaultLatch} (h : Inv s) (hk : LatchFits (s.latch k)) :
    Inv (s.latch k) :=
  ⟨h.memWf, h.memInside, h.memReach, h.progEven, h.pcLe, hk⟩

/-- A program of whole words, bound where no fault is latched, keeps the invariant. -/
theorem inv_bindProgram {s : State} {bytes : List Byte} (h : Inv s) (hf : s.fault = .none)
    (heven : bytes.length % 2 = 0) : Inv (s.bindProgram bytes) :=
  ⟨h.memWf, h.memInside, h.memReach, heven, Nat.zero_le _, latchFits_of_no_fault hf⟩

/-! ### Steps, requests and reachable states -/

/-- R150: the `UnknownOpcode` that an enabled step latches is true of the word at `pc`. -/
theorem latchFits_unknownOpcode {s : State} {byte1 : Byte} (hp : s.pc < s.progWords)
    (hb : s.prog[2 * s.pc]? = some byte1) (hl : legalOpcode (opcodeOf byte1) = false) :
    LatchFits (s.latch (.unknownOpcode s.pc (opcodeOf byte1))) := by
  have hget : s.prog.getD (2 * s.pc) 0 = byte1 := by rw [List.getD, hb, Option.getD_some]
  exact ⟨rfl, congrArg opcodeOf hget, hl, hp⟩

/-- The operand of a memory instruction that some word stands for. -/
theorem addr_inRange {i : Instr} {addr : Int} (hwf : i.wf)
    (hi : i = .loadMem addr ∨ i = .storeMem addr) : InOperandRange addr := by
  rcases hi with rfl | rfl
  · exact hwf
  · exact hwf

/-- An address in range and in bounds names a cell that instructions reach. -/
theorem toNat_lt_of_inBounds {s : State} {addr : Int} (haddr : InOperandRange addr)
    (hb : s.inBounds addr) : addr.toNat < s.config.memSize ∧ addr.toNat < 2048 := by
  obtain ⟨-, hhigh⟩ := haddr
  obtain ⟨h0, hsize⟩ := hb
  omega

/-- Settles O36: the step executes the word at `pc`; a completion is a write that keeps the invariant and
a move to the next word, a raise latches a fault that is true of that word. -/
theorem stepKeepsInvariant : Obligations.StepKeepsInvariant := by
  intro s t hinv h
  have hen : Enabled s := enabled_of_step_next h
  obtain ⟨byte1, byte2, hbyte1, -, hstep⟩ := step_of_enabled hen.1 hen.2
  have hwf : (decodeWord byte1 byte2).wf := decodeWord_wf byte1 byte2
  cases exec_cases (hstep.symm.trans h) with
  | loadMem addr _ _ => exact inv_advance (inv_setAcc hinv _) hen
  | loadConst c _ => exact inv_advance (inv_setAcc hinv c) hen
  | storeMem addr hi hb =>
    obtain ⟨hsize, hreach⟩ := toNat_lt_of_inBounds (addr_inRange hwf (.inr hi)) hb
    exact inv_advance (inv_storeCell hinv hsize hreach _) hen
  | sgn z _ => exact inv_advance (inv_setAcc hinv _) hen
  | outOfBounds addr hi hb => exact inv_latch hinv ⟨rfl, hen.2, addr_inRange hwf hi, hb⟩
  | unknownOpcode hl =>
    rw [opcodeNumber_decodeWord] at hl ⊢
    exact inv_latch hinv (latchFits_unknownOpcode hen.2 hbyte1 hl)

/-- Settles O37: a served request resets, binds whole words, latches the odd length at `pc = L`, or changes
nothing. -/
theorem hostRequestKeepsInvariant : Obligations.HostRequestKeepsInvariant := by
  intro r s t reply hinv h
  cases serve_cases h with
  | reset => exact inv_resetWith s.config
  | startOdd bytes _ hp hodd => exact inv_latch hinv ⟨hodd, le_antisymm hinv.pcLe (not_lt.1 hp)⟩
  | startEven bytes hf _ heven => exact inv_bindProgram hinv hf heven
  | snapshot _ _ _ _ => exact hinv
  | observe => exact hinv

/-- Settles O35: reset is a reset state of the default size. -/
theorem invariantHoldsAtReset : Obligations.InvariantHoldsAtReset :=
  ⟨inv_resetWith Config.standard, inv_resetWith⟩

theorem inv_of_move {m : Move} {s t : State} (hinv : Inv s) (h : move m s = some t) : Inv t := by
  rcases move_cases h with ⟨-, hstep⟩ | ⟨r, reply, -, hserve⟩
  · exact stepKeepsInvariant s t hinv hstep
  · exact hostRequestKeepsInvariant r s t reply hinv hserve

/-- Settles O38, by induction on the moves from reset. -/
theorem reachableStatesMeetInvariant : Obligations.ReachableStatesMeetInvariant := by
  intro c s hs
  induction hs with
  | reset => exact ⟨inv_resetWith c, rfl⟩
  | move m _ hm ih =>
    obtain ⟨hinv, hc⟩ := ih
    exact ⟨inv_of_move hinv hm, (move_keeps_config hm).trans hc⟩

/-- Settles O39: the invariant lists no such address, and an address that is not listed reads as 0. -/
theorem unreachableCellsHoldZero : Obligations.UnreachableCellsHoldZero := by
  intro s a hinv ha
  refine Memory.read_absent fun e he heq => ?_
  have hsize := hinv.memInside e he
  have hreach := hinv.memReach e he
  omega

end Sys2Proof

/-!
PROOF. Runs (spec 70_reset_and_hazards.md R184 to R190; 20_memory.md R65): a run taken apart step by step,
straight-line control, the end of every run, and what a cell holds along a run.
-/

namespace Sys2Proof
open Sys2Proof.Machine

/-! ### Straight-line control -/

theorem keepsProgram_refl (s : State) : KeepsProgram s s := ⟨rfl, rfl⟩

theorem keepsProgram_trans {s t u : State} (hst : KeepsProgram s t) (htu : KeepsProgram t u) :
    KeepsProgram s u :=
  ⟨htu.1.trans hst.1, htu.2.trans hst.2⟩

theorem core_run_zero {s t : State} (h : core.run 0 s = .next t) : t = s := by
  cases h
  rfl

/-- A run in a halted machine has no steps. -/
theorem core_run_of_halted {k : Nat} {s t : State} (hf : s.fault ≠ .none)
    (h : core.run k s = .next t) : k = 0 ∧ t = s := by
  cases k with
  | zero => exact ⟨rfl, core_run_zero h⟩
  | succ k =>
    obtain ⟨u, hstep, -⟩ := core_run_succ h
    exact absurd (enabled_of_step_next hstep).1 hf

/-- The first step of a run completes and the rest runs on from the next word, or it raises and is the
last. -/
theorem core_run_succ_cases {k : Nat} {s t : State} (h : core.run (k + 1) s = .next t) :
    ∃ u, step s = .next u ∧
      ((u.fault = .none ∧ u.pc = s.pc + 1 ∧ core.run k u = .next t) ∨
        (k = 0 ∧ t = u ∧ ∃ f, f ≠ .none ∧ u = s.latch f)) := by
  obtain ⟨u, hstep, hrest⟩ := core_run_succ h
  rcases step_completes_or_raises hstep with ⟨hf, hpc⟩ | ⟨f, hf, rfl⟩
  · exact ⟨u, hstep, .inl ⟨hf, hpc, hrest⟩⟩
  · obtain ⟨hk, ht⟩ := core_run_of_halted hf hrest
    exact ⟨_, hstep, .inr ⟨hk, ht, f, hf, rfl⟩⟩

/-- Settles O47, by induction on the number of steps: only the last one can raise. -/
theorem controlIsStraightLine : Obligations.ControlIsStraightLine := by
  intro k
  induction k with
  | zero =>
    intro s t h
    obtain rfl := core_run_zero h
    exact ⟨keepsProgram_refl t, fun _ => rfl, fun ht hs => absurd hs ht⟩
  | succ k ih =>
    intro s t h
    obtain ⟨u, hstep, ⟨hu, hpc, hrest⟩ | ⟨rfl, rfl, f, hf, rfl⟩⟩ := core_run_succ_cases h
    · obtain ⟨hkeep, hdone, hraised⟩ := ih u t hrest
      refine ⟨keepsProgram_trans (step_keepsProgram hstep) hkeep, fun ht => ?_, fun ht _ => ?_⟩
      · have := hdone ht
        omega
      · have := hraised ht hu
        omega
    · exact ⟨step_keepsProgram hstep, fun ht => absurd ht hf, fun _ _ => rfl⟩

/-! ### The end of a run -/

theorem runSteps_succ_of_next {n : Nat} {s t : State} (h : step s = .next t) :
    runSteps (n + 1) s = runSteps n t := by
  rw [runSteps, h]

/-- A run stays where no step is enabled. -/
theorem runSteps_of_not_enabled {s : State} (h : ¬ Enabled s) (n : Nat) : runSteps n s = s := by
  cases n with
  | zero => rfl
  | succ n =>
    by_cases hf : s.fault = .none
    · rw [runSteps, step_of_done hf fun hp => h ⟨hf, hp⟩]
    · rw [runSteps, step_of_halted hf]

/-- What holds of a state and is kept by every step holds at the end of a run. -/
theorem runSteps_induction {P : State → Prop} (hstep : ∀ s t, P s → step s = .next t → P t)
    (n : Nat) {s : State} (hs : P s) : P (runSteps n s) := by
  induction n generalizing s with
  | zero => exact hs
  | succ n ih =>
    by_cases hen : Enabled s
    · obtain ⟨t, ht⟩ := step_next_of_enabled hen
      rw [runSteps_succ_of_next ht]
      exact ih (hstep s t hs ht)
    · rwa [runSteps_of_not_enabled hen]

theorem runSteps_keepsProgram (n : Nat) (s : State) : KeepsProgram s (runSteps n s) :=
  runSteps_induction (fun _ _ hk h => keepsProgram_trans hk (step_keepsProgram h)) n
    (keepsProgram_refl s)

/-- R185: the two ways a run ends. -/
abbrev Ended (s : State) : Prop := EndedNormally s ∨ EndedByFault s

theorem not_enabled_of_ended {s : State} (h : Ended s) : ¬ Enabled s := by
  rintro ⟨hf, hp⟩
  rcases h with ⟨-, hpc⟩ | hfault
  · omega
  · exact hfault hf

theorem ended_of_not_enabled {s : State} (hp : s.pc ≤ s.progWords) (h : ¬ Enabled s) : Ended s := by
  by_cases hf : s.fault = .none
  · exact .inl ⟨hf, le_antisymm hp (not_lt.1 fun hlt => h ⟨hf, hlt⟩)⟩
  · exact .inr hf

theorem progWords_of_keepsProgram {s t : State} (h : KeepsProgram s t) :
    t.progWords = s.progWords := by
  rw [State.progWords, h.1, State.progWords]

/-- R184: as many steps as there are words left bring a run to its end. -/
theorem runSteps_ended {n : Nat} {s : State} (hp : s.pc ≤ s.progWords)
    (hn : s.progWords ≤ s.pc + n) : Ended (runSteps n s) := by
  induction n generalizing s with
  | zero => exact ended_of_not_enabled hp fun hen => absurd hen.2 (not_lt.2 hn)
  | succ n ih =>
    by_cases hen : Enabled s
    · obtain ⟨t, ht⟩ := step_next_of_enabled hen
      have hwords : t.progWords = s.progWords := progWords_of_keepsProgram (step_keepsProgram ht)
      rw [runSteps_succ_of_next ht]
      rcases step_completes_or_raises ht with ⟨-, hpc⟩ | ⟨f, hf, rfl⟩
      · have hlt := hen.2
        exact ih (by omega) (by omega)
      · rw [runSteps_of_not_enabled fun hen' => hf hen'.1]
        exact .inr hf
    · rw [runSteps_of_not_enabled hen]
      exact ended_of_not_enabled hp hen

theorem runToEnd_ended {s : State} (hp : s.pc ≤ s.progWords) : Ended (runToEnd s) :=
  runSteps_ended hp (Nat.le_add_left _ _)

/-- Settles O48: a program of `L` words has at most `L` words left. -/
theorem everyRunEnds : Obligations.EveryRunEnds := by
  intro s hp
  have hend : Ended (runToEnd s) := runToEnd_ended hp
  exact ⟨hend, fun _ h => not_enabled_of_ended hend (enabled_of_step_next h),
    runSteps_keepsProgram _ s⟩

/-! ### The cells along a run -/

/-- A step whose word is no `STORE_MEM a` leaves cell `a`. -/
theorem step_read_of_no_store {a : Nat} {s t : State} (h : step s = .next t)
    (hno : ∀ i rest, fetch s = .ok (i, rest) → i ≠ .storeMem a) :
    t.mem.read a = s.mem.read a := by
  obtain ⟨-, i, rest, hfetch, hexec⟩ := step_next_iff.1 h
  refine exec_read_other hexec fun addr hb hi ha => hno i rest hfetch ?_
  rw [hi, ha, Int.toNat_of_nonneg hb.1]

/-- The first of the words that do not store to `a`, and the words after it. -/
theorem noStoreTo_succ {prog : List Byte} {a : Int} {first n : Nat}
    (h : NoStoreTo prog a first (n + 1)) :
    (∀ i rest, decode (prog.drop (2 * first)) = .ok (i, rest) → i ≠ .storeMem a) ∧
      NoStoreTo prog a (first + 1) n :=
  ⟨h first (Nat.le_refl _) (by omega), fun j hj hjn => h j (by omega) (by omega)⟩

/-- Settles O49, by induction on the number of steps; a step that raises is the last one. -/
theorem cellKeepsLatestStore : Obligations.CellKeepsLatestStore := by
  intro k a
  induction k with
  | zero =>
    intro s t h _
    rw [core_run_zero h]
  | succ k ih =>
    intro s t h hno
    obtain ⟨hfirst, hmore⟩ := noStoreTo_succ hno
    obtain ⟨u, hstep, ⟨-, hpc, hrest⟩ | ⟨-, rfl, -⟩⟩ := core_run_succ_cases h
    · have hu : NoStoreTo u.prog a u.pc k := by
        rw [(step_keepsProgram hstep).1, hpc]
        exact hmore
      exact (ih u t hrest hu).trans (step_read_of_no_store hstep hfirst)
    · exact step_read_of_no_store hstep hfirst

/-- Settles O50: the store writes the accumulator's pattern, the words in between keep the cell, and the
load reads it. -/
theorem loadSeesLatestStore : Obligations.LoadSeesLatestStore := by
  intro k a s t u rest rest' hwf hf hb hstore hno hrun ht hload hstep
  have haddr : ((a.toNat : Nat) : Int) = a := Int.toNat_of_nonneg hb.1
  obtain ⟨v, hfirst, hmore⟩ := core_run_succ hrun
  rw [step_of_decode hf hstore, exec_storeMem_acc hb] at hfirst
  cases hfirst
  have hcell : t.mem.read a.toNat = s.acc := by
    rw [cellKeepsLatestStore k a.toNat _ t hmore (haddr.symm ▸ hno)]
    exact Memory.read_write_self hwf _ _
  have hbt : t.inBounds a := by
    obtain ⟨⟨-, hconfig⟩, -⟩ := controlIsStraightLine (k + 1) s t hrun
    rw [State.inBounds, hconfig]
    exact hb
  rw [step_of_decode ht hload] at hstep
  exact congrArg sext12 (acc_of_exec_loadMem hstep hbt hcell)

/-! ### Interpret -/

theorem report_of_fault {s : State} (first last : Int) (hf : s.fault ≠ .none) :
    report first last s = .next (.error s.fault) := if_pos hf

theorem report_of_served {s t : State} {first last : Int} {reply : Reply} (hf : s.fault = .none)
    (h : hostSnapshot first last s = .next (t, reply)) :
    report first last s = .next (.snapshot reply) := by
  rw [report, if_neg (not_not_intro hf), h]

/-- What `Start` accepts after reset is run to its end and reported. -/
theorem interpret_of_start {c : Config} {bytes : List Byte} {s : State} {reply : Reply}
    (first last : Int) (h : hostStart bytes (State.resetWith c) = .next (s, reply)) :
    interpret c bytes first last = report first last (runToEnd s) := by
  rw [interpret, h]

theorem interpret_of_odd (c : Config) {bytes : List Byte} (first last : Int)
    (hodd : bytes.length % 2 = 1) :
    interpret c bytes first last = .next (.error (.malformedProgram bytes.length)) := by
  rw [interpret_of_start first last (hostStart_of_odd rfl (not_running_resetWith c) hodd)]
  have hf : ((State.resetWith c).latch (.malformedProgram bytes.length)).fault ≠ .none := nofun
  rw [runToEnd, runSteps_of_not_enabled fun hen => hf hen.1]
  exact report_of_fault first last hf

/-- Settles O51: an odd stream is latched before any step, and the run of an even one ends by a fault, which
is reported, or normally, where the snapshot is served. -/
theorem interpretReportsRun : Obligations.InterpretReportsRun := by
  intro c bytes first last
  refine ⟨interpret_of_odd c first last, fun heven hr => ⟨_, rfl, ?_⟩⟩
  have hstart := hostStart_of_even rfl (not_running_resetWith c) heven
  rw [interpret_of_start first last hstart]
  have hend : Ended (runToEnd ((State.resetWith c).bindProgram bytes)) :=
    runToEnd_ended (Nat.zero_le _)
  rcases hend with hnormal | hfault
  · obtain ⟨reply, hserved⟩ := hostSnapshot_served hnormal.1 hr
    exact .inr ⟨hnormal, reply, hserved, report_of_served hnormal.1 hserved⟩
  · exact .inl ⟨hfault, report_of_fault first last hfault⟩

end Sys2Proof

/-!
PROOF. Assembled sources (spec 30_encoding.md R95, R98): each line is one word with a legal opcode, so the
run of an assembled source meets no illegal one.
-/

namespace Sys2Proof
open Sys2Proof.Machine

theorem assemble_length {lines : List (List Char)} {bytes : List Byte}
    (h : assemble lines = .ok bytes) : bytes.length = 2 * lines.length := by
  induction lines generalizing bytes with
  | nil => cases h; rfl
  | cons line lines ih =>
    obtain ⟨i, more, -, hmore, rfl⟩ := assemble_cons_ok h
    have hlen := ih hmore
    simp only [List.length_append, length_encode, List.length_cons]
    omega

/-- The word at line `k` of an assembled source decodes to the line's instruction. -/
theorem assemble_decode {lines : List (List Char)} {bytes : List Byte} {k : Nat} {line : List Char}
    (h : assemble lines = .ok bytes) (hk : lines[k]? = some line) :
    ∃ i rest, assembleLine line = .ok i ∧ decode (bytes.drop (2 * k)) = .ok (i, rest) := by
  induction lines generalizing bytes k with
  | nil => cases hk
  | cons first lines ih =>
    obtain ⟨i, more, hi, hmore, rfl⟩ := assemble_cons_ok h
    cases k with
    | zero =>
      cases hk
      exact ⟨i, more, hi, decode_encode_append (assembleLine_ok hi).1 more⟩
    | succ k => exact ih (bytes := more) hmore hk

/-- Settles O52, by induction on the lines. -/
theorem assembledLinesDecode : Obligations.AssembledLinesDecode := fun _ _ h =>
  ⟨assemble_length h, fun _ _ hk => assemble_decode h hk⟩

/-- Every word of an assembled source has a legal opcode. -/
theorem assemble_legal {lines : List (List Char)} {bytes : List Byte} {k : Nat} {i : Instr}
    {rest : List Byte} (h : assemble lines = .ok bytes)
    (hd : decode (bytes.drop (2 * k)) = .ok (i, rest)) :
    legalOpcode (opcodeNumber i) = true := by
  have hk : k < lines.length := by
    obtain ⟨byte1, byte2, hbytes, -⟩ := decode_ok_iff.1 hd
    have hdrop := congrArg List.length hbytes
    simp only [List.length_drop, assemble_length h, List.length_cons] at hdrop
    omega
  obtain ⟨j, rest', hj, hdj⟩ := assemble_decode h (List.getElem?_eq_getElem hk)
  rw [hd] at hdj
  cases hdj
  exact (assembleLine_ok hj).2

/-- `FAULT` is none or an out-of-bounds address. -/
def FaultFreeOrOutOfBounds (s : State) : Prop :=
  s.fault = .none ∨ ∃ idx addr, s.fault = .outOfBounds idx addr

/-- An instruction with a legal opcode raises nothing but `OutOfBounds`. -/
theorem exec_legal_fault {i : Instr} {s t : State} (hf : s.fault = .none)
    (hl : legalOpcode (opcodeNumber i) = true) (h : exec i s = .next t) :
    FaultFreeOrOutOfBounds t := by
  cases exec_cases h with
  | loadMem _ _ _ => exact .inl hf
  | loadConst _ _ => exact .inl hf
  | storeMem _ _ _ => exact .inl hf
  | sgn _ _ => exact .inl hf
  | outOfBounds addr _ _ => exact .inr ⟨s.pc, addr, rfl⟩
  | unknownOpcode hbad => exact absurd (hbad.symm.trans hl) nofun

/-- Settles O53: the stream has an even length, and every step of its run executes a legal opcode. -/
theorem assembledSourceHasKnownOpcodes : Obligations.AssembledSourceHasKnownOpcodes := by
  intro c lines bytes h
  have heven : bytes.length % 2 = 0 := by
    rw [assemble_length h]
    omega
  refine ⟨_, hostStart_of_even rfl (not_running_resetWith c) heven, rfl, ?_⟩
  have hrun : ∀ s t : State, s.prog = bytes ∧ FaultFreeOrOutOfBounds s → step s = .next t →
      t.prog = bytes ∧ FaultFreeOrOutOfBounds t := by
    rintro s t ⟨hprog, -⟩ hstep
    obtain ⟨hf, i, rest, hfetch, hexec⟩ := step_next_iff.1 hstep
    rw [fetch, hprog] at hfetch
    exact ⟨(step_keepsProgram hstep).1.trans hprog,
      exec_legal_fault hf (assemble_legal h hfetch) hexec⟩
  exact (runSteps_induction hrun _ ⟨rfl, .inl rfl⟩).2

end Sys2Proof
